-- ==== Sys2Proof/Word.lean ====
section
/-! DEFINITION. The words of HalfFloatCodec: the two data formats as bit patterns, the operation word,
and the names of slots and callers. -/

namespace Sys2Proof

/-- A half-float bit pattern (00_scope.md R12, R15). -/
abbrev Pattern16 := BitVec 16

/-- A binary32 bit pattern: what a float32 is at the block's boundary (30_encoding.md R57). -/
abbrev Pattern32 := BitVec 32

/-- The 33-bit operation word `W` (30_encoding.md R67). -/
abbrev OpWord := BitVec 33

/-- One byte, used only where a slot is viewed in byte memory (20_memory.md R38). -/
abbrev Byte := BitVec 8

/-- The name of a destination. The spec's `SlotId` is an abstract type with decidable equality
(10_state.md R26); the model takes the natural numbers. DESIGN CHOICE (log 1), safe. -/
abbrev SlotId := Nat

/-- The name of a caller; callers may be many (10_state.md R31). DESIGN CHOICE (log 1), safe. -/
abbrev CallerId := Nat

end Sys2Proof
end

