-- ==== Sys2Proof/Config.lean ====
section
/-! DEFINITION. The parameters of 00_scope.md R13 that the spec leaves open, as constants without a body:
no proof can see what they are. `SlotId` is in Word.lean. -/

namespace Sys2Proof

/-- The two orders in which a 16-bit slot can lie in two bytes (20_memory.md R38). -/
inductive Endian where
  | little
  | big
deriving DecidableEq, Repr, Inhabited

/-- `SLOT_ENDIAN`, OPEN in the spec (20_memory.md R38): used by the byte view of slots only. Log 11. -/
opaque Config.slotEndian : Endian

/-- Free value of DEC on a NaN (40_decode.md R81): the 23 fraction bits less one, so that the fraction
runs over every nonzero 23-bit value. It may depend on the operand (a fixed `DEC_NAN`) and on the number
of the draw (a fraction "possibly different on each call"). DESIGN CHOICE (log 5), safe. -/
opaque Config.freeDecFraction : Nat → Pattern16 → Fin 8388607

/-- Free value of ENC on a NaN (41_encode.md R92): the sign bit, not constrained. DESIGN CHOICE (log 6), safe. -/
opaque Config.freeEncSign : Nat → Pattern32 → BitVec 1

/-- Free value of ENC on a NaN (41_encode.md R92): the ten mantissa bits less one, so that the mantissa
runs over every nonzero 10-bit value. DESIGN CHOICE (log 6), safe. -/
opaque Config.freeEncMantissa : Nat → Pattern32 → Fin 1023

end Sys2Proof
end

