-- ==== Sys2Proof/Syntax.lean ====
section
/-! DEFINITION. The instruction set (30_encoding.md R71: two rows) and the request that carries an
instruction to the block (30_encoding.md R67). -/

namespace Sys2Proof

/-- The two operations of the block. -/
inductive Instr where
  /-- `DEC`: the document's `decode(bits)` (40_decode.md R75). -/
  | dec (bits : Pattern16)
  /-- `ENC`: the document's `encode(value, out)` (41_encode.md R85). -/
  | enc (value : Pattern32) (dst : SlotId)
deriving DecidableEq, Repr

/-- A request: one 33-bit operation word and, for ENC only, a destination carried beside the word
(30_encoding.md R67). -/
structure Request where
  word : OpWord
  dst  : Option SlotId
deriving DecidableEq, Repr

end Sys2Proof
end

