-- ==== Sys2Proof/WellFormed.lean ====
section
/-! DEFINITION. Which requests are well formed. An instruction needs no check of its own: every `bits`
and every `value` is a valid operand (30_encoding.md R55, R58, R72) and every `SlotId` names a slot
(20_memory.md R42). -/

namespace Sys2Proof

/-- Format H or format F (30_encoding.md R68, R69): with bit 32 set a destination accompanies the word;
with bit 32 clear the reserved field `W[31:16]` is zero and no destination accompanies the word. -/
def Request.wf (r : Request) : Bool :=
  if r.word.getLsbD 32 then r.dst.isSome
  else (r.word.extractLsb' 16 16 == 0#16) && r.dst.isNone

end Sys2Proof
end

