-- ==== Sys2Proof/Decode.lean ====
section
/-! DEFINITION. The opcode map, the decoder (total, rejecting by name) and the encoder, all written from
30_encoding.md Part 2. -/

namespace Sys2Proof

/-- One row of the opcode map (30_encoding.md R71): a word `W` selects the row with `W & mask = match`. -/
structure OpcodeRow where
  mnemonic : String
  pattern  : OpWord
  mask     : OpWord
deriving DecidableEq, Repr

/-- Format H (30_encoding.md R68). -/
def decRow : OpcodeRow := ⟨"DEC", 0x000000000#33, 0x1FFFF0000#33⟩

/-- Format F (30_encoding.md R69). -/
def encRow : OpcodeRow := ⟨"ENC", 0x100000000#33, 0x100000000#33⟩

/-- The complete opcode map (30_encoding.md R71). -/
def opcodeMap : List OpcodeRow := [decRow, encRow]

/-- The row's test on a word (30_encoding.md R71). -/
def OpcodeRow.selects (row : OpcodeRow) (w : OpWord) : Bool := (w &&& row.mask) == row.pattern

/-- The field `bits = W[15:0]` of format H, taken as it stands (30_encoding.md R70). -/
def OpWord.bits (w : OpWord) : Pattern16 := w.extractLsb' 0 16

/-- The field `value = W[31:0]` of format F, taken as it stands (30_encoding.md R70). -/
def OpWord.value (w : OpWord) : Pattern32 := w.extractLsb' 0 32

/-- Why the decoder rejects a request. -/
inductive DecodeError where
  /-- `W[32] = 0` and `W[31:16] != 0`: a reserved word (30_encoding.md R72). -/
  | reservedWord (w : OpWord)
  /-- A word of format F with no destination beside it: no request of 30_encoding.md R67. -/
  | missingDestination (w : OpWord)
  /-- A word of format H with a destination beside it: no request of 30_encoding.md R68. -/
  | strayDestination (w : OpWord)
deriving DecidableEq, Repr

/-- The decoder. -/
def decode (r : Request) : Except DecodeError Instr :=
  if encRow.selects r.word then
    match r.dst with
    | some d => .ok (.enc (OpWord.value r.word) d)
    | none   => .error (.missingDestination r.word)
  else if decRow.selects r.word then
    match r.dst with
    | none   => .ok (.dec (OpWord.bits r.word))
    | some _ => .error (.strayDestination r.word)
  else .error (.reservedWord r.word)

/-- The encoder, from the pattern strings of 30_encoding.md R68 and R69. -/
def encode : Instr → Request
  | .dec bits      => ⟨0#1 ++ 0#16 ++ bits, none⟩
  | .enc value dst => ⟨1#1 ++ value, some dst⟩

/-- The slot a request would write: the destination of an ENC (30_encoding.md R69). -/
def Request.target (r : Request) : Option SlotId :=
  match decode r with
  | .ok (.enc _ d) => some d
  | _              => none

/-- The request whose word has the bits of `w` numbered as spec/opcode_table.json numbers them, of which
the table gives `nbits`; every bit above `nbits` is 0. A number of 34 bits or more is no operation word
(30_encoding.md R67: one length, 33 bits). The destination beside a word of format F has no bits in the
table and is slot 0. Log 7. -/
def requestOfTable (nbits w : Nat) : Option Request :=
  let v := w % 2 ^ nbits
  if v < 2 ^ 33 then some ⟨BitVec.ofNat 33 v, if v.testBit 32 then some 0 else none⟩ else none

/-- What the decoder reads from an instruction whose bits are `w`. -/
def decodeTableWord (nbits w : Nat) : Option Instr :=
  match requestOfTable nbits w with
  | some r =>
    match decode r with
    | .ok i    => some i
    | .error _ => none
  | none => none

end Sys2Proof
end

