-- ==== Sys2Proof/Machine/Operands.lean ====
section
/-! DEFINITION. The operands: the fields and the classes of binary16 and binary32 patterns
(30_encoding.md Part 1). The fields of the operation word are in Decode.lean (R70). -/

namespace Sys2Proof.Machine

/-- The sign bit `h[15]` (30_encoding.md R54, R59). -/
def sign16 (h : Pattern16) : BitVec 1 := h.extractLsb' 15 1

/-- The biased exponent field `h[14:10]` (30_encoding.md R54). -/
def expo16 (h : Pattern16) : BitVec 5 := h.extractLsb' 10 5

/-- The mantissa `h[9:0]` (30_encoding.md R54). -/
def mant16 (h : Pattern16) : BitVec 10 := h.extractLsb' 0 10

/-- `h[14:0]`: exponent and mantissa together, the integer that orders magnitudes (41_encode.md R88). -/
def low15 (h : Pattern16) : BitVec 15 := h.extractLsb' 0 15

/-- The sign bit `f[31]` (30_encoding.md R57, R62). -/
def sign32 (f : Pattern32) : BitVec 1 := f.extractLsb' 31 1

/-- The biased exponent field `f[30:23]` (30_encoding.md R57). -/
def expo32 (f : Pattern32) : BitVec 8 := f.extractLsb' 23 8

/-- The fraction `f[22:0]` (30_encoding.md R57). -/
def frac32 (f : Pattern32) : BitVec 23 := f.extractLsb' 0 23

/-- The five classes of a pattern (30_encoding.md R56, R58). -/
inductive FloatClass where
  | zero
  | subnormal
  | normal
  | infinity
  | nan
deriving DecidableEq, Repr

/-- The class of a binary16 pattern (30_encoding.md R56). -/
def class16 (h : Pattern16) : FloatClass :=
  if expo16 h = 0#5 then (if mant16 h = 0#10 then .zero else .subnormal)
  else if expo16 h = 31#5 then (if mant16 h = 0#10 then .infinity else .nan)
  else .normal

/-- The class of a binary32 pattern (30_encoding.md R58). -/
def class32 (f : Pattern32) : FloatClass :=
  if expo32 f = 0#8 then (if frac32 f = 0#23 then .zero else .subnormal)
  else if expo32 f = 255#8 then (if frac32 f = 0#23 then .infinity else .nan)
  else .normal

/-- 30_encoding.md R60. -/
abbrev isNaN16 (h : Pattern16) : Prop := expo16 h = 31#5 ∧ mant16 h ≠ 0#10

/-- 30_encoding.md R60. -/
abbrev isInf16 (h : Pattern16) : Prop := expo16 h = 31#5 ∧ mant16 h = 0#10

/-- 30_encoding.md R60. -/
abbrev isFinite16 (h : Pattern16) : Prop := expo16 h ≠ 31#5

/-- 30_encoding.md R63. -/
abbrev isNaN32 (f : Pattern32) : Prop := expo32 f = 255#8 ∧ frac32 f ≠ 0#23

/-- 30_encoding.md R63. -/
abbrev isInf32 (f : Pattern32) : Prop := expo32 f = 255#8 ∧ frac32 f = 0#23

/-- 30_encoding.md R63. -/
abbrev isFinite32 (f : Pattern32) : Prop := expo32 f ≠ 255#8

/-- A NaN whose top trailing-significand bit `h[9]` is 1 is quiet (30_encoding.md R66). No operation tells
quiet and signalling NaNs apart. -/
abbrev isQuiet16 (h : Pattern16) : Prop := isNaN16 h ∧ h.getLsbD 9 = true

/-- A NaN whose top trailing-significand bit `f[22]` is 1 is quiet (30_encoding.md R66). -/
abbrev isQuiet32 (f : Pattern32) : Prop := isNaN32 f ∧ f.getLsbD 22 = true

/-- Does the operand of the instruction lie among the NaNs, so that its result is a free value? -/
def nanOperand : Instr → Bool
  | .dec bits    => isNaN16 bits
  | .enc value _ => isNaN32 value

end Sys2Proof.Machine
end

