-- ==== Sys2Proof/Machine/Nan.lean ====
section
/-! DEFINITION. The parameters `DEC_NAN` and `ENC_NAN` (00_scope.md R13): the constraints the spec puts on
them, the free values the machine uses, and the spec's defaults, which the machine does not use. -/

namespace Sys2Proof.Machine

/-- The constraint on `DEC_NAN` (40_decode.md R81): a binary32 NaN with the sign of the operand. -/
def DecNanAdmissible (nan : Pattern16 → Pattern32) : Prop :=
  ∀ bits, isNaN16 bits →
    sign32 (nan bits) = sign16 bits ∧ expo32 (nan bits) = 0xFF#8 ∧ frac32 (nan bits) ≠ 0#23

/-- The constraint on `ENC_NAN` (41_encode.md R92): a binary16 NaN; the sign is not constrained. -/
def EncNanAdmissible (nan : Pattern32 → Pattern16) : Prop :=
  ∀ value, isNaN32 value → expo16 (nan value) = 0b11111#5 ∧ mant16 (nan value) ≠ 0#10

/-- `DEC_NAN` as the machine takes it: sign preserved (40_decode.md R76), exponent all ones, fraction the
free value of draw number `n`. Log 5. -/
def decNan (n : Nat) (bits : Pattern16) : Pattern32 :=
  sign16 bits ++ 0xFF#8 ++ BitVec.ofNat 23 ((Config.freeDecFraction n bits).val + 1)

/-- `ENC_NAN` as the machine takes it: exponent all ones, sign and mantissa the free values of draw number
`n`. Log 6. -/
def encNan (n : Nat) (value : Pattern32) : Pattern16 :=
  Config.freeEncSign n value ++ 0b11111#5 ++ BitVec.ofNat 10 ((Config.freeEncMantissa n value).val + 1)

/-- `DEC_NAN_default` (40_decode.md R81), the spec's choice for a model that wants a function. -/
def decNanDefault (bits : Pattern16) : Pattern32 :=
  sign16 bits ++ 0xFF#8 ++ (((mant16 bits).zeroExtend 23 <<< 13) ||| 0x400000#23)

/-- `ENC_NAN_default` (41_encode.md R92), the spec's choice for a model that wants a function. -/
def encNanDefault (value : Pattern32) : Pattern16 :=
  sign32 value ++ 0b11111#5 ++ ((frac32 value).extractLsb' 13 10 ||| 0x200#10)

end Sys2Proof.Machine
end

