-- ==== Sys2Proof/Machine/State.lean ====
section
/-! DEFINITION. The machine's state (10_state.md R26, R29), the world around the block that a run needs
(10_state.md R31, R32), the reasons a step can stop, and the state after reset (10_state.md R33). -/

namespace Sys2Proof.Machine

/-- The faults. No operation of the block faults (60_exceptions.md R110); a reader outside it can. -/
inductive Fault where
  /-- Raised by `callerRead`: an agent reads a slot that nothing has written; such a slot holds no value
  and a reader must fault (10_state.md R34). Safe. -/
  | unwrittenSlot (d : SlotId)
deriving DecidableEq, Repr

/-- The refusals: runs and requests the spec gives no meaning. -/
inductive Refusal where
  /-- Raised by an arm of `exec` that has no meaning yet; no arm of this model. Safe. -/
  | notModelled (mnemonic : String)
  /-- Raised by `performFor`: the request is a reserved word (30_encoding.md R72) or has the shape of
  neither format (30_encoding.md R67). Safe. -/
  | badRequest (e : DecodeError)
  /-- Raised by `handOver` and `callerWrite`: two writes to one slot overlap in time (20_memory.md R46:
  "it is refused"). Safe. -/
  | overlappingWriters (d : SlotId)
deriving DecidableEq, Repr

/-- The slot store (10_state.md R26): the slots that have been written, by rising name, each with the last
pattern written to it. A slot that is not listed holds no value. -/
abbrev SlotStore := List (SlotId × Pattern16)

/-- A call: a request that a caller has handed over (10_state.md R31). -/
structure Call where
  caller  : CallerId
  request : Request
deriving DecidableEq, Repr

/-- What the callers and the environment do (10_state.md R31, R32; 70_reset_and_hazards.md R126, R133). -/
inductive Input where
  /-- Caller `c` hands request `r` over: the call begins. -/
  | call (c : CallerId) (r : Request)
  /-- The block performs the oldest outstanding call of caller `c`, and that call returns. -/
  | perform (c : CallerId)
  /-- Caller `c` reads slot `d`. -/
  | read (c : CallerId) (d : SlotId)
  /-- A caller, or any other agent, overwrites slot `d`. -/
  | write (d : SlotId) (h : Pattern16)
  /-- The block alone is reset. -/
  | resetBlock
  /-- The whole system is reset. -/
  | resetSystem
deriving DecidableEq, Repr

/-- What a caller gets back (10_state.md R28; 70_reset_and_hazards.md R133). -/
inductive Observation where
  /-- A DEC call of `c` returns with its response. -/
  | response (c : CallerId) (v : Pattern32)
  /-- An ENC call of `c` returns; nothing is handed back. -/
  | returned (c : CallerId)
  /-- Caller `c` reads slot `d` and sees `h`. -/
  | sawSlot (c : CallerId) (d : SlotId) (h : Pattern16)
deriving DecidableEq, Repr

/-- The caller an observation belongs to. -/
def Observation.caller : Observation → CallerId
  | .response c _  => c
  | .returned c    => c
  | .sawSlot c _ _ => c

/-- The state. `slots` is all the spec gives the machine (10_state.md R29); the other fields are the model's
own: the world around the block, and the count of free values drawn (logs 3, 4 and 5). -/
structure State where
  /-- The slot store, outside the block and owned by the callers (10_state.md R26, R27). -/
  slots      : SlotStore
  /-- The response path of the operation being performed: no state of the block, `none` between steps
  (10_state.md R28). -/
  response   : Option Pattern32
  /-- Calls handed over and not yet performed, oldest first. -/
  calls      : List Call
  /-- What callers and the environment do next, in order. -/
  inputs     : List Input
  /-- What callers have got back, oldest first. -/
  transcript : List Observation
  /-- How many free NaN results have been drawn. -/
  draws      : Nat
deriving DecidableEq, Repr

/-- The machine right after a reset of the whole system (10_state.md R33): every slot without a value.
The block has nothing to reset (70_reset_and_hazards.md R125). -/
def State.reset : State :=
  { slots := [], response := none, calls := [], inputs := [], transcript := [], draws := 0 }

end Sys2Proof.Machine
end

