-- ==== Sys2Proof/Machine/Ops.lean ====
section
/-! DEFINITION. The named operations over the slot store and the state: the one write of the block, its
response path, the free values, and what callers and the environment do. The block takes no exception and
returns from none (60_exceptions.md R110, R115, R116), so no such operation stands here. -/

namespace Sys2Proof.Machine

/-- What a slot holds: `none` where nothing has written it (10_state.md R26, R34). -/
def SlotStore.read : SlotStore → SlotId → Option Pattern16
  | [], _ => none
  | (k, h) :: rest, d => if d = k then some h else SlotStore.read rest d

/-- `SlotWrite(dst, h)` (20_memory.md R37): slot `d` takes all 16 bits of `h`, every other slot is
unchanged. The list stays in rising order of names. -/
def SlotStore.write : SlotStore → SlotId → Pattern16 → SlotStore
  | [], d, h => [(d, h)]
  | (k, g) :: rest, d, h =>
    if d < k then (d, h) :: (k, g) :: rest
    else if d = k then (d, h) :: rest
    else (k, g) :: SlotStore.write rest d h

/-- The one canonical form: names strictly rising. (An unlisted slot holds no value and a listed one holds
one, so no entry can equal what an unlisted slot reads as.) -/
def SlotStore.wf : SlotStore → Bool
  | [] => true
  | (k, _) :: rest => rest.all (fun e => decide (k < e.1)) && SlotStore.wf rest

/-- `SlotWrite` on the state. -/
def State.slotWrite (d : SlotId) (h : Pattern16) (s : State) : State :=
  { s with slots := s.slots.write d h }

/-- `respond(v)` (00_scope.md R17): the operation answers `v`. -/
def State.respond (v : Pattern32) (s : State) : State := { s with response := some v }

/-- The operation gives no response (10_state.md R28, R30). -/
def State.noResponse (s : State) : State := { s with response := none }

/-- Count one free value drawn when the operand was a NaN (logs 5 and 6). -/
def State.drawIf (nan : Bool) (s : State) : State :=
  { s with draws := if nan then s.draws + 1 else s.draws }

/-- The oldest outstanding call of caller `c` and the calls that remain: one caller's requests are performed
in the order it issued them (10_state.md R21). -/
def takeOldest (c : CallerId) : List Call → Option (Request × List Call)
  | [] => none
  | k :: rest =>
    if k.caller = c then some (k.request, rest)
    else (takeOldest c rest).map (fun p => (p.1, k :: p.2))

/-- The call of `c` returns: the caller gets the response of a DEC, and nothing of an ENC; the response is
held nowhere afterwards (10_state.md R28). -/
def State.returnTo (c : CallerId) (s : State) : State :=
  { s with
    transcript := s.transcript ++ [match s.response with
      | some v => .response c v
      | none   => .returned c]
    response := none }

/-- Is an ENC to slot `d` outstanding that a caller other than `c` handed over? -/
def otherWriter (c : CallerId) (d : SlotId) (calls : List Call) : Bool :=
  calls.any (fun k => decide (k.caller ≠ c) && decide (k.request.target = some d))

/-- Is an ENC to slot `d` outstanding at all? -/
def anyWriter (d : SlotId) (calls : List Call) : Bool :=
  calls.any (fun k => decide (k.request.target = some d))

/-- Caller `c` hands request `r` over. Where `r` is an ENC to a slot that an outstanding ENC of another caller
writes, the two writes overlap in time and the run is refused (20_memory.md R45, R46). Log 8. -/
def handOver (c : CallerId) (r : Request) (s : State) : Host.Outcome State Fault Refusal :=
  match r.target with
  | some d =>
    if otherWriter c d s.calls then .refused (.overlappingWriters d)
    else .next { s with calls := s.calls ++ [⟨c, r⟩] }
  | none => .next { s with calls := s.calls ++ [⟨c, r⟩] }

/-- Caller `c` reads slot `d`: it sees the last pattern written; a slot that holds no value faults
(10_state.md R34, 20_memory.md R44 b, R51). -/
def callerRead (c : CallerId) (d : SlotId) (s : State) : Host.Outcome State Fault Refusal :=
  match s.slots.read d with
  | some h => .next { s with transcript := s.transcript ++ [.sawSlot c d h] }
  | none   => .fault (.unwrittenSlot d)

/-- A caller, or any other agent, overwrites slot `d` between calls (10_state.md R27); during an ENC to the
same slot it breaks the exclusive-writer contract and is refused (20_memory.md R45, R46). Log 8. -/
def callerWrite (d : SlotId) (h : Pattern16) (s : State) : Host.Outcome State Fault Refusal :=
  if anyWriter d s.calls then .refused (.overlappingWriters d) else .next (s.slotWrite d h)

/-- A reset of the block alone leaves every slot as it was; the block has nothing to reset and no pending
operation (70_reset_and_hazards.md R125, R126). Calls that are outstanding are not being performed, since a step
is atomic (R126, R132): they stay outstanding. Log 9. -/
def resetBlock (s : State) : Host.Outcome State Fault Refusal := .next s

/-- A reset of the whole system leaves every slot without a value (10_state.md R33;
70_reset_and_hazards.md R126). Outstanding calls, coming inputs and what callers have got back belong to the
callers, not to the machine: they stay. Log 9. -/
def resetSystem (s : State) : Host.Outcome State Fault Refusal := .next { s with slots := [] }

end Sys2Proof.Machine
end

