-- ==== Sys2Proof/Machine/Dec.lean ====
section
/-! DEFINITION. The family of DEC, binary16 to binary32 (40_decode.md). -/

namespace Sys2Proof.Machine

/-- 40_decode.md R77. -/
def decZero (s : BitVec 1) : Pattern32 := s ++ 0x00#8 ++ 0#23

/-- 40_decode.md R78: `k` is the index of the highest set bit of the mantissa; the mantissa is shifted so
that this bit lands on bit 23, and that bit is dropped. -/
def decSubnormal (s : BitVec 1) (m : BitVec 10) : Pattern32 :=
  let k := m.toNat.log2
  s ++ BitVec.ofNat 8 (103 + k) ++ BitVec.ofNat 23 ((m.toNat <<< (23 - k)) % 2 ^ 23)

/-- 40_decode.md R79. -/
def decNormal (s : BitVec 1) (e : BitVec 5) (m : BitVec 10) : Pattern32 :=
  s ++ BitVec.ofNat 8 (e.toNat + 112) ++ BitVec.ofNat 23 (m.toNat <<< 13)

/-- 40_decode.md R80. -/
def decInf (s : BitVec 1) : Pattern32 := s ++ 0xFF#8 ++ 0#23

/-- `DEC(bits)` (40_decode.md R75), for a given `DEC_NAN`. -/
def decBits (nan : Pattern16 → Pattern32) (bits : Pattern16) : Pattern32 :=
  match class16 bits with
  | .zero      => decZero (sign16 bits)
  | .subnormal => decSubnormal (sign16 bits) (mant16 bits)
  | .infinity  => decInf (sign16 bits)
  | .nan       => nan bits
  | .normal    => decNormal (sign16 bits) (expo16 bits) (mant16 bits)

/-- `DEC`: respond with the binary32 pattern; nothing is written (40_decode.md R75, R82). -/
def execDec (bits : Pattern16) (s : State) : Host.Outcome State Fault Refusal :=
  .next ((s.respond (decBits (decNan s.draws) bits)).drawIf (isNaN16 bits))

end Sys2Proof.Machine
end

