-- ==== Sys2Proof/Machine/Enc.lean ====
section
/-! DEFINITION. The family of ENC, binary32 to binary16 (41_encode.md). The finite case is the bit-level
procedure of R93; that it is the rounding of R88 is a statement about this text. -/

namespace Sys2Proof.Machine

/-- The number `n` of significand bits rounded off (41_encode.md R93). -/
def encDropped (E : Nat) : Nat := if 113 ≤ E then 13 else 126 - E

/-- The `base` the kept bits are added to (41_encode.md R93). -/
def encBase (E : Nat) : Nat := if 113 ≤ E then ((E - 112) <<< 10) - 0x400 else 0

/-- `r`: whether the kept bits `q` are rounded up, ties to even (41_encode.md R93). -/
def encRoundUp (q rem half : Nat) : Nat := if half < rem ∨ (rem = half ∧ q % 2 = 1) then 1 else 0

/-- The 15 bits `j` below the sign, from exponent field and fraction (41_encode.md R93). -/
def encMagnitude (E F : Nat) : Nat :=
  if E ≤ 101 then 0
  else if 143 ≤ E then 0x7C00
  else
    let sig := 0x800000 ||| F
    let n := encDropped E
    let q := sig >>> n
    encBase E + q + encRoundUp q (sig % 2 ^ n) (1 <<< (n - 1))

/-- `ENC_finite(value) = S ++ j` (41_encode.md R88, R93). -/
def encFinite (value : Pattern32) : Pattern16 :=
  sign32 value ++ BitVec.ofNat 15 (encMagnitude (expo32 value).toNat (frac32 value).toNat)

/-- `ENC_inf(S)` (41_encode.md R91). -/
def encInf (s : BitVec 1) : Pattern16 := s ++ 0b11111#5 ++ 0#10

/-- `ENCbits(value)` (41_encode.md R85), for a given `ENC_NAN`. The NaN test and the infinity test come
before any arithmetic (R86). -/
def encBits (nan : Pattern32 → Pattern16) (value : Pattern32) : Pattern16 :=
  if isNaN32 value then nan value
  else if isInf32 value then encInf (sign32 value)
  else encFinite value

/-- `ENC`: the pattern is written to the destination, and no response is given (41_encode.md R85, R97). -/
def execEnc (value : Pattern32) (dst : SlotId) (s : State) : Host.Outcome State Fault Refusal :=
  .next ((s.noResponse.slotWrite dst (encBits (encNan s.draws) value)).drawIf (isNaN32 value))

end Sys2Proof.Machine
end

