-- ==== Sys2Proof/Machine/Dispatch.lean ====
section
/-! DEFINITION. One arm per instruction (30_encoding.md R71). -/

namespace Sys2Proof.Machine

def exec (i : Instr) (s : State) : Host.Outcome State Fault Refusal :=
  match i with
  | .dec bits => Sys2Proof.Machine.execDec bits s
  | .enc value dst => Sys2Proof.Machine.execEnc value dst s

end Sys2Proof.Machine
end

