-- ==== Sys2Proof/Machine/Calls.lean ====
section
/-! DEFINITION. Performing a call, and the effect of each input (10_state.md R30, R31). -/

namespace Sys2Proof.Machine

/-- What a step adds around `exec`: after the operation's own effect the call returns to its caller. -/
def returning (c : CallerId) (o : Host.Outcome State Fault Refusal) : Host.Outcome State Fault Refusal :=
  match o with
  | .next t    => .next (t.returnTo c)
  | .fault f   => .fault f
  | .refused r => .refused r

/-- The block performs request `r` for caller `c`: the operation the request decodes to, or a refusal by
name (10_state.md R30, 30_encoding.md R72). -/
def performFor (c : CallerId) (r : Request) (s : State) : Host.Outcome State Fault Refusal :=
  match decode r with
  | .ok i    => returning c (exec i s)
  | .error e => .refused (.badRequest e)

/-- The block performs the oldest outstanding call of caller `c`; where there is none, nothing happens. -/
def perform (c : CallerId) (s : State) : Host.Outcome State Fault Refusal :=
  match takeOldest c s.calls with
  | some (r, rest) => performFor c r { s with calls := rest }
  | none           => .next s

/-- The effect of one input. -/
def act (i : Input) (s : State) : Host.Outcome State Fault Refusal :=
  match i with
  | .call c r    => handOver c r s
  | .perform c   => perform c s
  | .read c d    => callerRead c d s
  | .write d h   => callerWrite d h s
  | .resetBlock  => resetBlock s
  | .resetSystem => resetSystem s

end Sys2Proof.Machine
end

