-- ==== Sys2Proof/Machine/Step.lean ====
section
/-! DEFINITION. One step of the machine: one operation performed, or one move of a caller or of the
environment (10_state.md R30, R31). The effects are in Calls.lean and Ops.lean. -/

namespace Sys2Proof.Machine

/-- One step. The next input is consumed and acts. With no input left, the block performs the oldest
outstanding call of all; with no call outstanding either, the run is over (70_reset_and_hazards.md R132)
and nothing happens. Log 10. -/
def step (s : State) : Host.Outcome State Fault Refusal :=
  match s.inputs with
  | i :: rest => act i { s with inputs := rest }
  | [] =>
    match s.calls with
    | k :: _ => perform k.caller s
    | []     => .next s

/-- `s` with the instruction whose bits are `w` handed over by caller 0 ahead of every other call, and its
performance as the next input: the very next step performs it. Where `w` is no 33-bit operation word there
is nothing to hand over, and the next step performs nothing. Log 3, log 7. -/
def State.withFetchWord (s : State) (nbits w : Nat) : State :=
  match requestOfTable nbits w with
  | some r => { s with calls := ⟨0, r⟩ :: s.calls, inputs := .perform 0 :: s.inputs }
  | none   => { s with calls := [], inputs := [] }

end Sys2Proof.Machine
end

