-- ==== Sys2Proof/Machine/Assembly.lean ====
section
/-! DEFINITION. The assembly text of 30_encoding.md R74, `DEC 0xHHHH` and `ENC 0xVVVVVVVV, @name`, one request
a line, `;` starting a comment. Text is a list of characters. What a slot is called is the text's own affair:
the two functions take the names as an argument. Log 13. -/

namespace Sys2Proof.Machine

/-- The digit of a number below 16. -/
def hexDigit (n : Nat) : Char :=
  if n < 10 then Char.ofNat (48 + n) else Char.ofNat (55 + n)

/-- The number a hexadecimal digit stands for, in capitals or small letters. -/
def hexValue (c : Char) : Option Nat :=
  let n := c.toNat
  if 48 ≤ n ∧ n ≤ 57 then some (n - 48)
  else if 65 ≤ n ∧ n ≤ 70 then some (n - 55)
  else if 97 ≤ n ∧ n ≤ 102 then some (n - 87)
  else none

/-- The last `k` hexadecimal digits of a number, most significant first. -/
def hexDigits : Nat → Nat → List Char
  | 0, _ => []
  | k + 1, n => hexDigits k (n / 16) ++ [hexDigit (n % 16)]

/-- The number a row of digits stands for, read on from `acc`. -/
def hexNumber : Nat → List Char → Option Nat
  | acc, [] => some acc
  | acc, c :: cs =>
    match hexValue c with
    | some v => hexNumber (acc * 16 + v) cs
    | none   => none

/-- An operand of `k` hexadecimal digits after `0x`. -/
def hexOperand (k : Nat) : List Char → Option Nat
  | '0' :: 'x' :: ds => if ds.length = k then hexNumber 0 ds else none
  | _ => none

/-- The text of an instruction. -/
def assemblyOf (nameOf : SlotId → List Char) : Instr → List Char
  | .dec bits      => ['D', 'E', 'C', ' ', '0', 'x'] ++ hexDigits 4 bits.toNat
  | .enc value dst =>
    ['E', 'N', 'C', ' ', '0', 'x'] ++ hexDigits 8 value.toNat ++ [',', ' ', '@'] ++ nameOf dst

/-- The tokens of a line: spaces separate, a comma is a token of its own, `;` ends the line. `word` holds the
characters of the token being read, last first. -/
def assemblyTokens : List Char → List Char → List (List Char)
  | word, [] => if word = [] then [] else [word.reverse]
  | word, c :: cs =>
    if c = ';' then (if word = [] then [] else [word.reverse])
    else if c = ' ' then (if word = [] then [] else [word.reverse]) ++ assemblyTokens [] cs
    else if c = ',' then (if word = [] then [] else [word.reverse]) ++ [','] :: assemblyTokens [] cs
    else assemblyTokens (c :: word) cs

/-- The instruction a line of text stands for; none where the line is of neither form. -/
def parseAssembly (slotOf : List Char → Option SlotId) (line : List Char) : Option Instr :=
  match assemblyTokens [] line with
  | [['D', 'E', 'C'], x] => (hexOperand 4 x).map (fun n => .dec (BitVec.ofNat 16 n))
  | [['E', 'N', 'C'], x, [','], '@' :: name] =>
    match hexOperand 8 x, slotOf name with
    | some n, some d => some (.enc (BitVec.ofNat 32 n) d)
    | _, _           => none
  | _ => none

end Sys2Proof.Machine
end

