-- ==== Sys2Proof/Machine/Bytes.lean ====
section
/-! DEFINITION. The slots seen as bytes (20_memory.md R38, R39), for a model that embeds slots in
byte-addressed memory. No operation reads this view. Slot `d` stands at the two consecutive byte addresses
`2 d` and `2 d + 1`, so that no slot has an odd address. Log 11. -/

namespace Sys2Proof.Machine

/-- The byte of a 16-bit slot at the lower (`0`) or the higher (any other number) of its two addresses
(20_memory.md R38). -/
def byteOfSlot (e : Endian) (h : Pattern16) (offset : Nat) : Byte :=
  match e with
  | .little => if offset = 0 then h.extractLsb' 0 8 else h.extractLsb' 8 8
  | .big    => if offset = 0 then h.extractLsb' 8 8 else h.extractLsb' 0 8

/-- The byte at address `a` in the order `e`; no byte where the slot holds no value (10_state.md R34). -/
def SlotStore.byte (e : Endian) (S : SlotStore) (a : Nat) : Option Byte :=
  (S.read (a / 2)).map (fun h => byteOfSlot e h (a % 2))

/-- The byte at address `a`, in the order `SLOT_ENDIAN` that the spec leaves open. -/
def State.byteAt (s : State) (a : Nat) : Option Byte := s.slots.byte Config.slotEndian a

end Sys2Proof.Machine
end

