-- ==== Sys2Proof/Machine/Values.lean ====
section
/-! DEFINITION. The value functions (30_encoding.md R61, R64) and the rounding by value (41_encode.md R88),
over the rationals (00_scope.md R18). The machine does not run them: the statements are made through them. -/

namespace Sys2Proof.Machine

/-- `mag16(h)`, the magnitude of a finite pattern (30_encoding.md R61). The spec defines it for finite patterns
only, and no statement uses it on another (log 14). -/
def mag16 (h : Pattern16) : ℚ :=
  if expo16 h = 0#5 then ((mant16 h).toNat : ℚ) * (2 : ℚ) ^ (-24 : ℤ)
  else (1024 + ((mant16 h).toNat : ℚ)) * (2 : ℚ) ^ (((expo16 h).toNat : ℤ) - 25)

/-- `mag32(f)`, the magnitude of a finite pattern (30_encoding.md R64). The spec defines it for finite patterns
only, and no statement uses it on another (log 14). -/
def mag32 (f : Pattern32) : ℚ :=
  if expo32 f = 0#8 then ((frac32 f).toNat : ℚ) * (2 : ℚ) ^ (-149 : ℤ)
  else (2 ^ 23 + ((frac32 f).toNat : ℚ)) * (2 : ℚ) ^ (((expo32 f).toNat : ℤ) - 150)

/-- `G(i)` for `i` in `0 .. 0x7C00`: the magnitude the 15-bit pattern `i` denotes, continued one step past the
largest finite pattern (41_encode.md R88). -/
def gridMag (i : Nat) : ℚ := if i = 0x7C00 then 2 ^ 16 else mag16 (BitVec.ofNat 16 i)

/-- `j` is the 15-bit pattern that round-to-nearest, ties to even, gives for the magnitude `x`
(41_encode.md R88): `0x7C00` from `2^16` on; below, the nearer of the two neighbours `i` and `i + 1` of `x`, and
at a tie the even one. -/
def RoundsToNearestEven (x : ℚ) (j : Nat) : Prop :=
  (2 ^ 16 ≤ x → j = 0x7C00) ∧
  (x < 2 ^ 16 → ∃ i, i ≤ 0x7BFF ∧ gridMag i ≤ x ∧ x < gridMag (i + 1) ∧
    (x - gridMag i < gridMag (i + 1) - x → j = i) ∧
    (gridMag (i + 1) - x < x - gridMag i → j = i + 1) ∧
    (x - gridMag i = gridMag (i + 1) - x → (j = i ∨ j = i + 1) ∧ j % 2 = 0))

end Sys2Proof.Machine
end

