-- ==== Sys2Proof/Machine/Flags.lean ====
section
/-! DEFINITION. The block has no flag (10_state.md R22). What stands here are the events that are exceptions in
IEEE 754 arithmetic and are not events of the block (60_exceptions.md R111), as predicates on an operand: the
statements use them to say that an operation on such an operand has its ordinary result and nothing else. -/

namespace Sys2Proof.Machine

/-- Overflow of ENC: a finite operand of magnitude 65520 or more (60_exceptions.md R111, 41_encode.md R90). -/
def overflows (value : Pattern32) : Prop := isFinite32 value ∧ 65520 ≤ mag32 value

/-- Underflow of ENC: a finite operand of magnitude `2^-25` or less (60_exceptions.md R111, 41_encode.md R89). -/
def underflows (value : Pattern32) : Prop := isFinite32 value ∧ mag32 value ≤ (2 : ℚ) ^ (-25 : ℤ)

/-- Inexact of ENC: a finite operand that is no binary16 value (60_exceptions.md R111). -/
def inexact (value : Pattern32) : Prop :=
  isFinite32 value ∧ ∀ h, isFinite16 h → mag16 h ≠ mag32 value

end Sys2Proof.Machine
end

