-- ==== Sys2Proof/Safety.lean ====
section
/-! DEFINITION. What counts as a safe run: the exclusive-writer contract, the invariant of the state, and the
end of a run. -/

namespace Sys2Proof.Machine

/-- The exclusive-writer contract on outstanding calls (20_memory.md R45): no two callers have an ENC to one
slot outstanding at the same time. -/
def exclusiveWriters (calls : List Call) : Bool :=
  calls.all (fun k =>
    match k.request.target with
    | some d => !otherWriter k.caller d calls
    | none   => true)

/-- The invariant of the state between steps: the slot store is in its canonical form, no response is held
(10_state.md R28), and the outstanding calls respect the exclusive-writer contract (20_memory.md R45). -/
structure State.Inv (s : State) : Prop where
  slots_wf       : s.slots.wf = true
  no_response    : s.response = none
  writers_apart  : exclusiveWriters s.calls = true

/-- The end of a run (70_reset_and_hazards.md R132): every request every caller issued has had its step, and
nothing more is to happen. -/
abbrev State.runOver (s : State) : Prop := s.inputs = [] ∧ s.calls = []

/-- An upper bound on the steps a run still takes: handing a request over and performing it are two. -/
def State.stepsLeft (s : State) : Nat := 2 * s.inputs.length + s.calls.length

/-- What caller `c` has got back, oldest first. -/
def State.seenBy (s : State) (c : CallerId) : List Observation :=
  s.transcript.filter (fun o => decide (o.caller = c))

end Sys2Proof.Machine
end

