-- ==== Sys2Proof/Certificates/Slice0/Obligations.lean ====
section
/-! DEFINITION. The statements for the provers. A statement over a parameter `N` or `M` in the place of `DEC_NAN`
or `ENC_NAN` holds whatever those parameters are; `decNan n` and `encNan n` are what the machine uses. -/

open Sys2Proof Sys2Proof.Machine

/-! ## Encoding -/

/-- The operation-word vectors of 95_test_vectors.md section 4, with slot 7 for `a`. -/
def Obligations.OperationWordVectorsDecode : Prop :=
  decode ⟨0x000003C00#33, none⟩ = .ok (.dec 0x3C00#16) ∧
  decode ⟨0x00000FFFF#33, none⟩ = .ok (.dec 0xFFFF#16) ∧
  decode ⟨0x000000000#33, none⟩ = .ok (.dec 0x0000#16) ∧
  decode ⟨0x13F800000#33, some 7⟩ = .ok (.enc 0x3F800000#32 7) ∧
  decode ⟨0x100003C00#33, some 7⟩ = .ok (.enc 0x00003C00#32 7) ∧
  decode ⟨0x1FFFFFFFF#33, some 7⟩ = .ok (.enc 0xFFFFFFFF#32 7) ∧
  decode ⟨0x000013C00#33, none⟩ = .error (.reservedWord 0x000013C00#33) ∧
  decode ⟨0x0FFFF0000#33, none⟩ = .error (.reservedWord 0x0FFFF0000#33) ∧
  decode ⟨0x080000000#33, none⟩ = .error (.reservedWord 0x080000000#33)

/-- Decoding an encoded instruction gives it back, for every instruction and every operand
(30_encoding.md R68, R69, R70). -/
def Obligations.DecodeOfEncodeIsTheInstruction : Prop :=
  ∀ i : Instr, decode (encode i) = .ok i

/-- Every instruction has one request: what decodes to it is its encoding (30_encoding.md R68, R69). -/
def Obligations.AcceptedRequestIsTheEncoding : Prop :=
  ∀ (r : Request) (i : Instr), decode r = .ok i → encode i = r

/-- The decoder accepts the requests of the shape of format H or format F and no other (30_encoding.md R67, R68, R69, R72). The rule R72
refuses reserved words; that a word whose destination is missing or does not belong to its format is refused as well is the model's
reading (log 7, DEDUCED). -/
def Obligations.DecoderAcceptsExactlyTheWellFormed : Prop :=
  ∀ r : Request, (∃ i, decode r = .ok i) ↔ r.wf = true

/-- 30_encoding.md R71: a word selects the row with `W & mask = match`, no word selects both rows, and the row
selected is the instruction decoded. -/
def Obligations.OpcodeMapSelectsTheInstruction : Prop :=
  ∀ w : OpWord,
    ¬ (w &&& 0x1FFFF0000#33 = 0x000000000#33 ∧ w &&& 0x100000000#33 = 0x100000000#33) ∧
    (w &&& 0x1FFFF0000#33 = 0x000000000#33 → decode ⟨w, none⟩ = .ok (.dec (w.extractLsb' 0 16))) ∧
    (w &&& 0x100000000#33 = 0x100000000#33 → ∀ d, decode ⟨w, some d⟩ = .ok (.enc (w.extractLsb' 0 32) d))

/-- 30_encoding.md R72: the words with `W[32] = 0` and `W[31:16] != 0` match no row, whatever accompanies them, and are rejected as
reserved. A word of format F with no destination and one of format H with a destination are rejected by names of their own, which is the
model's reading (log 7, DEDUCED). Performing any request that is rejected is refused, wherever its call stands among the calls of other
callers, and with no input left where it is the oldest call of all (log 10). -/
def Obligations.ReservedWordIsRefused : Prop :=
  (∀ (w : OpWord) (dst : Option SlotId), w.getLsbD 32 = false → w.extractLsb' 16 16 ≠ 0#16 →
    decRow.selects w = false ∧ encRow.selects w = false ∧ decode ⟨w, dst⟩ = .error (.reservedWord w)) ∧
  (∀ w : OpWord, w.getLsbD 32 = true → decode ⟨w, none⟩ = .error (.missingDestination w)) ∧
  (∀ (w : OpWord) (d : SlotId), w.getLsbD 32 = false → w.extractLsb' 16 16 = 0#16 →
    decode ⟨w, some d⟩ = .error (.strayDestination w)) ∧
  (∀ (s : State) (c : CallerId) (r : Request) (e : DecodeError) (pre post : List Call),
    s.calls = pre ++ ⟨c, r⟩ :: post → (∀ k ∈ pre, k.caller ≠ c) → decode r = .error e →
    (∀ rest, s.inputs = .perform c :: rest → step s = .refused (.badRequest e)) ∧
    (s.inputs = [] → pre = [] → step s = .refused (.badRequest e)))

/-- 30_encoding.md R54, R57: a pattern is its sign, exponent and significand fields in this order. -/
def Obligations.PatternIsItsFields : Prop :=
  (∀ h : Pattern16, h = sign16 h ++ expo16 h ++ mant16 h) ∧
  (∀ f : Pattern32, f = sign32 f ++ expo32 f ++ frac32 f)

/-- The conditions of the class tables (30_encoding.md R56, R58) and their agreement with the predicates of
R60 and R63. -/
def Obligations.ClassesMeetTheirConditions : Prop :=
  (∀ h : Pattern16,
    (class16 h = .zero ↔ expo16 h = 0#5 ∧ mant16 h = 0#10) ∧
    (class16 h = .subnormal ↔ expo16 h = 0#5 ∧ mant16 h ≠ 0#10) ∧
    (class16 h = .normal ↔ 1 ≤ (expo16 h).toNat ∧ (expo16 h).toNat ≤ 30) ∧
    (class16 h = .infinity ↔ isInf16 h) ∧ (class16 h = .nan ↔ isNaN16 h)) ∧
  (∀ f : Pattern32,
    (class32 f = .zero ↔ expo32 f = 0#8 ∧ frac32 f = 0#23) ∧
    (class32 f = .subnormal ↔ expo32 f = 0#8 ∧ frac32 f ≠ 0#23) ∧
    (class32 f = .normal ↔ 1 ≤ (expo32 f).toNat ∧ (expo32 f).toNat ≤ 254) ∧
    (class32 f = .infinity ↔ isInf32 f) ∧ (class32 f = .nan ↔ isNaN32 f))

/-- 30_encoding.md R74: reading the assembly text of an instruction gives it back, for every naming of
slots whose names hold no space, comma or semicolon. (The naming and the letters admitted are the model's: log 13.) -/
def Obligations.AssemblyTextReadsBack : Prop :=
  ∀ (nameOf : SlotId → List Char) (slotOf : List Char → Option SlotId) (i : Instr),
    (∀ d, slotOf (nameOf d) = some d) →
    (∀ d, ' ' ∉ nameOf d ∧ ',' ∉ nameOf d ∧ ';' ∉ nameOf d) →
    parseAssembly slotOf (assemblyOf nameOf i) = some i

/-! ## DEC -/

/-- DEC completes on every operand in every state: it responds, and every other field of the state is as before but for
the count of free values, which a NaN operand advances (log 5). 40_decode.md R75, R82. -/
def Obligations.DecCompletesAndOnlyResponds : Prop :=
  ∀ (bits : Pattern16) (s : State),
    exec (.dec bits) s = .next { s with
      response := some (decBits (decNan s.draws) bits)
      draws := if isNaN16 bits then s.draws + 1 else s.draws }

/-- 40_decode.md R77. -/
def Obligations.DecOfZeroIsSignedZero : Prop :=
  ∀ (sg : BitVec 1) (s : State),
    exec (.dec (sg ++ 0#5 ++ 0#10)) s = .next { s with response := some (sg ++ 0x00#8 ++ 0#23) }

/-- 40_decode.md R78: `k` is the index of the highest set bit of `m`; it is at most 9, the response is normal, and its low 14
bits are zero. -/
def Obligations.DecOfSubnormalIsNormalised : Prop :=
  ∀ (sg : BitVec 1) (m : BitVec 10) (k : Nat) (s : State),
    2 ^ k ≤ m.toNat → m.toNat < 2 ^ (k + 1) →
    k ≤ 9 ∧
    ∃ v : Pattern32,
      v = sg ++ BitVec.ofNat 8 (103 + k) ++ BitVec.ofNat 23 ((m.toNat * 2 ^ (23 - k)) % 2 ^ 23) ∧
      exec (.dec (sg ++ 0#5 ++ m)) s = .next { s with response := some v } ∧
      (expo32 v).toNat = 103 + k ∧ class32 v = .normal ∧ v.extractLsb' 0 14 = 0#14

/-- 40_decode.md R79. -/
def Obligations.DecOfNormalRebiasesTheExponent : Prop :=
  ∀ (sg : BitVec 1) (e : BitVec 5) (m : BitVec 10) (s : State),
    1 ≤ e.toNat → e.toNat ≤ 30 →
    ∃ v : Pattern32,
      v = sg ++ BitVec.ofNat 8 (e.toNat + 112) ++ BitVec.ofNat 23 (m.toNat * 2 ^ 13) ∧
      exec (.dec (sg ++ e ++ m)) s = .next { s with response := some v } ∧
      (expo32 v).toNat = e.toNat + 112 ∧ (frac32 v).toNat = m.toNat * 2 ^ 13

/-- 40_decode.md R80. -/
def Obligations.DecOfInfinityIsInfinity : Prop :=
  ∀ (sg : BitVec 1) (s : State),
    exec (.dec (sg ++ 31#5 ++ 0#10)) s = .next { s with response := some (sg ++ 0xFF#8 ++ 0#23) }

/-- 40_decode.md R81 with R76: a NaN gives a NaN of the same sign, whose fraction is free but nonzero. That one free value is
counted is the model's choice (log 5). -/
def Obligations.DecOfNaNIsSomeNaN : Prop :=
  ∀ (sg : BitVec 1) (m : BitVec 10) (s : State), m ≠ 0#10 →
    ∃ F : BitVec 23, F ≠ 0#23 ∧
      exec (.dec (sg ++ 31#5 ++ m)) s =
        .next { s with response := some (sg ++ 0xFF#8 ++ F), draws := s.draws + 1 }

/-- 40_decode.md R76. For a NaN operand the preserved sign is an inference of the spec (decision D20, conflict C6), log 15. -/
def Obligations.DecPreservesTheSign : Prop :=
  ∀ (bits : Pattern16) (s : State), ∃ (t : State) (v : Pattern32),
    exec (.dec bits) s = .next t ∧ t.response = some v ∧ sign32 v = sign16 bits

/-- 40_decode.md R83: class, sign and magnitude are exact, and a NaN gives a NaN. -/
def Obligations.DecIsExact : Prop :=
  ∀ (bits : Pattern16) (s : State), ∃ (t : State) (v : Pattern32),
    exec (.dec bits) s = .next t ∧ t.response = some v ∧
    (isInf32 v ↔ isInf16 bits) ∧ (isNaN32 v ↔ isNaN16 bits) ∧
    (¬ isNaN16 bits → sign32 v = sign16 bits) ∧
    (isFinite16 bits → isFinite32 v ∧ mag32 v = mag16 bits)

/-- 40_decode.md R84 a, b, c: for an operand that is no NaN the low 13 bits of the response are zero; the exponent field is 0 (for
zeros only), in 103 .. 142, or 255; the response is never a binary32 subnormal. -/
def Obligations.DecResponseShape : Prop :=
  ∀ (N : Pattern16 → Pattern32) (b : Pattern16), ¬ isNaN16 b →
    (decBits N b).extractLsb' 0 13 = 0#13 ∧
    ((expo32 (decBits N b)).toNat = 0 ∧ class16 b = .zero ∨
      103 ≤ (expo32 (decBits N b)).toNat ∧ (expo32 (decBits N b)).toNat ≤ 142 ∨
      (expo32 (decBits N b)).toNat = 255) ∧
    class32 (decBits N b) ≠ .subnormal

/-- 40_decode.md R84 d: DEC is injective on the patterns that are no NaN. -/
def Obligations.DecIsInjectiveOffNaN : Prop :=
  ∀ (N : Pattern16 → Pattern32) (b c : Pattern16), ¬ isNaN16 b → ¬ isNaN16 c →
    decBits N b = decBits N c → b = c

/-- 40_decode.md R84 e: DEC is strictly monotone in the magnitude order, on positive operands up to infinity as the rule has it, and on
two operands of one sign that are no NaN by their bits below the sign. -/
def Obligations.DecIsStrictlyMonotone : Prop :=
  (∀ (N : Pattern16 → Pattern32) (b c : Pattern16), c.toNat ≤ 0x7C00 → b.toNat < c.toNat →
    (decBits N b).toNat < (decBits N c).toNat) ∧
  (∀ (N : Pattern16 → Pattern32) (b c : Pattern16), ¬ isNaN16 b → ¬ isNaN16 c → sign16 b = sign16 c →
    (low15 b).toNat < (low15 c).toNat → (decBits N b).toNat < (decBits N c).toNat)

/-- 40_decode.md R82, 10_state.md R25: the response depends on the operand alone, and for a NaN on the draw. -/
def Obligations.DecResponseDependsOnOperandAlone : Prop :=
  ∀ (bits : Pattern16) (s₁ s₂ : State), ¬ isNaN16 bits ∨ s₁.draws = s₂.draws →
    ∃ t₁ t₂ v, exec (.dec bits) s₁ = .next t₁ ∧ exec (.dec bits) s₂ = .next t₂ ∧
      t₁.response = some v ∧ t₂.response = some v

/-! ## ENC -/

/-- ENC completes on every operand, every destination and in every state: the pattern is written to the destination, no response is
given, and every other field is as before but for the count of free values (log 6). 41_encode.md R85, R95. -/
def Obligations.EncCompletesAndOnlyWrites : Prop :=
  ∀ (v : Pattern32) (d : SlotId) (s : State),
    exec (.enc v d) s = .next { s with
      slots := s.slots.write d (encBits (encNan s.draws) v)
      response := none
      draws := if isNaN32 v then s.draws + 1 else s.draws }

/-- 41_encode.md R97, 20_memory.md R37: after ENC the destination holds all 16 bits of the result, whatever it held, and every other slot
reads as before; calls, inputs and transcript are untouched. -/
def Obligations.EncChangesItsDestinationOnly : Prop :=
  ∀ (v : Pattern32) (d : SlotId) (s : State), ∃ (t : State),
    exec (.enc v d) s = .next t ∧
    t.slots.read d = some (encBits (encNan s.draws) v) ∧
    (∀ d', d' ≠ d → t.slots.read d' = s.slots.read d') ∧
    t.response = none ∧ t.calls = s.calls ∧ t.inputs = s.inputs ∧ t.transcript = s.transcript

/-- 20_memory.md R38 for a model that embeds slots in bytes: in either byte order the two bytes of the destination hold the pattern ENC
computes and every byte outside them reads as before. Where the bytes stand is the model's choice (log 11). -/
def Obligations.EncInByteMemory : Prop :=
  ∀ (v : Pattern32) (d : SlotId) (s : State), ∃ (t : State) (h : Pattern16),
    h = encBits (encNan s.draws) v ∧ exec (.enc v d) s = .next t ∧ t.slots.read d = some h ∧
    t.slots.byte .little (2 * d) = some (h.extractLsb' 0 8) ∧
    t.slots.byte .little (2 * d + 1) = some (h.extractLsb' 8 8) ∧
    t.slots.byte .big (2 * d) = some (h.extractLsb' 8 8) ∧
    t.slots.byte .big (2 * d + 1) = some (h.extractLsb' 0 8) ∧
    ∀ a, a ≠ 2 * d → a ≠ 2 * d + 1 → t.byteAt a = s.byteAt a

/-- 41_encode.md R88: a finite operand is rounded to nearest, ties to even; `G` (`gridMag`) and the two neighbours are the rule's. -/
def Obligations.EncOfFiniteRoundsToNearestEven : Prop :=
  ∀ (v : Pattern32) (d : SlotId) (s : State), isFinite32 v →
    ∃ j : BitVec 15, RoundsToNearestEven (mag32 v) j.toNat ∧
      exec (.enc v d) s =
        .next { s with slots := s.slots.write d (sign32 v ++ j), response := none }

/-- 41_encode.md R88: `G` is strictly increasing, from 0 over `2^-24` to 65504 and 65536. -/
def Obligations.GridIsStrictlyIncreasing : Prop :=
  (∀ i j, i < j → j ≤ 0x7C00 → gridMag i < gridMag j) ∧
  gridMag 0 = 0 ∧ gridMag 1 = (2 : ℚ) ^ (-24 : ℤ) ∧ gridMag 0x7BFF = 65504 ∧ gridMag 0x7C00 = 65536

/-- 41_encode.md R88: every magnitude below `2^16` has exactly one lower neighbour on the grid, and the rounded pattern of every
magnitude exists and is unique. -/
def Obligations.RoundingIsAFunctionOfTheMagnitude : Prop :=
  (∀ x : ℚ, 0 ≤ x → x < 2 ^ 16 → ∃! i : Nat, i ≤ 0x7BFF ∧ gridMag i ≤ x ∧ x < gridMag (i + 1)) ∧
  (∀ x : ℚ, 0 ≤ x → ∃! j : Nat, RoundsToNearestEven x j)

/-- 41_encode.md R87. -/
def Obligations.EncPreservesTheSignOffNaN : Prop :=
  ∀ (v : Pattern32) (d : SlotId) (s : State), ¬ isNaN32 v → ∃ (t : State) (h : Pattern16),
    exec (.enc v d) s = .next t ∧ t.slots.read d = some h ∧ sign16 h = sign32 v

/-- 41_encode.md R89, 60_exceptions.md R111: a finite operand of magnitude at most `2^-25` stores the signed zero, from there to
`2^-24` the smallest subnormal, and from `2^-24` to `2^-14` a subnormal or, from `1023.5 * 2^-24` on, the smallest normal; nothing else
is recorded. -/
def Obligations.EncUnderflowIsGradual : Prop :=
  ∀ (v : Pattern32) (d : SlotId) (s : State), isFinite32 v →
    ∃ j : BitVec 15,
      exec (.enc v d) s = .next { s with slots := s.slots.write d (sign32 v ++ j), response := none } ∧
      (underflows v → j = 0#15) ∧
      (expo32 v = 0#8 → underflows v) ∧
      ((2 : ℚ) ^ (-25 : ℤ) < mag32 v → mag32 v < (2 : ℚ) ^ (-24 : ℤ) → j = 1#15) ∧
      ((2 : ℚ) ^ (-24 : ℤ) ≤ mag32 v → mag32 v < 1023.5 * (2 : ℚ) ^ (-24 : ℤ) → 1 ≤ j.toNat ∧ j.toNat ≤ 0x3FF) ∧
      (1023.5 * (2 : ℚ) ^ (-24 : ℤ) ≤ mag32 v → mag32 v < (2 : ℚ) ^ (-14 : ℤ) → j = 0x400#15)

/-- 41_encode.md R90, 60_exceptions.md R111: a finite operand of magnitude 65520 or more stores the signed infinity, one strictly between
65504 and 65520 the largest finite pattern; nothing else is recorded. -/
def Obligations.EncOverflowsFrom65520 : Prop :=
  ∀ (v : Pattern32) (d : SlotId) (s : State), isFinite32 v →
    ∃ j : BitVec 15,
      exec (.enc v d) s = .next { s with slots := s.slots.write d (sign32 v ++ j), response := none } ∧
      (overflows v → sign32 v ++ j = sign32 v ++ 0b11111#5 ++ 0#10) ∧
      (65504 < mag32 v → mag32 v < 65520 → j = 0x7BFF#15)

/-- 41_encode.md R91. -/
def Obligations.EncOfInfinityIsInfinity : Prop :=
  ∀ (sg : BitVec 1) (d : SlotId) (s : State),
    exec (.enc (sg ++ 0xFF#8 ++ 0#23) d) s =
      .next { s with slots := s.slots.write d (sg ++ 0b11111#5 ++ 0#10), response := none }

/-- 41_encode.md R92: a NaN stores a NaN pattern, whose sign is free and whose mantissa is free but nonzero. That one free value is
counted is the model's choice (log 6). -/
def Obligations.EncOfNaNIsSomeNaN : Prop :=
  ∀ (v : Pattern32) (d : SlotId) (s : State), isNaN32 v →
    ∃ (sg : BitVec 1) (m : BitVec 10), m ≠ 0#10 ∧
      exec (.enc v d) s =
        .next { s with
          slots := s.slots.write d (sg ++ 0b11111#5 ++ m)
          response := none
          draws := s.draws + 1 }

/-- 41_encode.md R94: the finite case by exponent field. -/
def Obligations.EncFiniteByExponentField : Prop :=
  ∀ (M : Pattern32 → Pattern16) (v : Pattern32) (E F j : Nat),
    E = (expo32 v).toNat → F = (frac32 v).toNat → j = (low15 (encBits M v)).toNat →
    (E ≤ 101 → j = 0) ∧
    (E = 102 → F = 0 → j = 0) ∧
    (E = 102 → F ≠ 0 → j = 1) ∧
    (103 ≤ E → E ≤ 112 → 1 ≤ j ∧ j ≤ 0x400) ∧
    (113 ≤ E → E ≤ 141 → (E - 112) * 1024 ≤ j ∧ j ≤ (E - 111) * 1024) ∧
    (E = 142 → F < 0x7FF000 → 0x7800 ≤ j ∧ j ≤ 0x7BFF) ∧
    (E = 142 → 0x7FF000 ≤ F → j = 0x7C00) ∧
    (143 ≤ E → E ≤ 254 → j = 0x7C00)

/-- 41_encode.md R98 b, c, d: the result is a NaN, an infinity, a zero exactly for these operands. -/
def Obligations.EncResultClass : Prop :=
  ∀ (n : Nat) (v : Pattern32),
    (isNaN16 (encBits (encNan n) v) ↔ isNaN32 v) ∧
    (isInf16 (encBits (encNan n) v) ↔ isInf32 v ∨ overflows v) ∧
    (class16 (encBits (encNan n) v) = .zero ↔ underflows v)

/-- 41_encode.md R98 e: on finite operands of one sign ENC is monotone in the magnitude. -/
def Obligations.EncIsMonotone : Prop :=
  ∀ (M : Pattern32 → Pattern16) (v w : Pattern32), isFinite32 v → isFinite32 w → sign32 v = sign32 w →
    mag32 v ≤ mag32 w → (low15 (encBits M v)).toNat ≤ (low15 (encBits M w)).toNat

/-- 41_encode.md R98 f: the rounding error of a finite operand that does not overflow. -/
def Obligations.EncErrorIsAtMostHalfAGap : Prop :=
  ∀ (M : Pattern32 → Pattern16) (v : Pattern32), isFinite32 v → ¬ overflows v →
    (mag32 v < (2 : ℚ) ^ (-13 : ℤ) → |mag16 (encBits M v) - mag32 v| ≤ (2 : ℚ) ^ (-25 : ℤ)) ∧
    (∀ t : ℤ, -14 ≤ t → t ≤ 15 → (2 : ℚ) ^ t ≤ mag32 v → mag32 v < (2 : ℚ) ^ (t + 1) →
      |mag16 (encBits M v) - mag32 v| ≤ (2 : ℚ) ^ (t - 11))

/-- 41_encode.md R88, 60_exceptions.md R111: the result has the operand's magnitude exactly when the operand is a binary16 value. -/
def Obligations.EncIsExactUnlessInexact : Prop :=
  ∀ (M : Pattern32 → Pattern16) (v : Pattern32), isFinite32 v →
    (isFinite16 (encBits M v) ∧ mag16 (encBits M v) = mag32 v ↔ ¬ inexact v)

/-- 41_encode.md R96: the pattern stored depends on the operand alone, and for a NaN on the draw; not on the destination, nor on what the
slot held. -/
def Obligations.EncPatternDependsOnOperandAlone : Prop :=
  ∀ (v : Pattern32) (d₁ d₂ : SlotId) (s₁ s₂ : State), ¬ isNaN32 v ∨ s₁.draws = s₂.draws →
    ∃ t₁ t₂ h, exec (.enc v d₁) s₁ = .next t₁ ∧ exec (.enc v d₂) s₂ = .next t₂ ∧
      t₁.slots.read d₁ = some h ∧ t₂.slots.read d₂ = some h

/-- 20_memory.md R41: performing the same ENC twice leaves the store as performing it once, for an operand that is no NaN (for which the
model draws). -/
def Obligations.EncTwiceIsEncOnce : Prop :=
  ∀ (v : Pattern32) (d : SlotId) (s : State), ¬ isNaN32 v → ∃ (t u : State),
    exec (.enc v d) s = .next t ∧ exec (.enc v d) t = .next u ∧ u.slots = t.slots

/-! ## Laws that tie the two operations together -/

/-- The constraints on `DEC_NAN` and `ENC_NAN` (40_decode.md R81, 41_encode.md R92) are met by what the machine draws and by the two
defaults, which give quiet NaNs (30_encoding.md R66). -/
def Obligations.NaNParametersAreAdmissible : Prop :=
  (∀ n, DecNanAdmissible (decNan n)) ∧ (∀ n, EncNanAdmissible (encNan n)) ∧
  DecNanAdmissible decNanDefault ∧ EncNanAdmissible encNanDefault ∧
  (∀ b, isNaN16 b → isQuiet32 (decNanDefault b)) ∧ (∀ v, isNaN32 v → isQuiet16 (encNanDefault v))

/-- 42_laws.md R101: a binary16 pattern that is no NaN, decoded and encoded again, is itself; here as two operations of the machine, in
any two states. -/
def Obligations.EncodeOfDecodeIsThePattern : Prop :=
  ∀ (b : Pattern16) (d : SlotId) (s u : State), ¬ isNaN16 b → ∃ (t w : State) (v : Pattern32),
    exec (.dec b) s = .next t ∧ t.response = some v ∧
    exec (.enc v d) u = .next w ∧ w.slots.read d = some b

/-- 42_laws.md R102: a NaN decoded and encoded again is a NaN, for every admissible pair of parameters; under the two defaults it is
`b | 0x0200`. -/
def Obligations.EncodeOfDecodeOfNaNIsNaN : Prop :=
  (∀ (N : Pattern16 → Pattern32) (M : Pattern32 → Pattern16), DecNanAdmissible N → EncNanAdmissible M →
    ∀ b, isNaN16 b → isNaN16 (encBits M (decBits N b))) ∧
  (∀ b, isNaN16 b → encBits encNanDefault (decBits decNanDefault b) = b ||| 0x0200#16)

/-- 42_laws.md R103: on the responses of DEC to patterns that are no NaN, decoding what ENC gives is the identity; a finite binary32
pattern that is none of them comes back changed. -/
def Obligations.DecodeOfEncodeOnRepresentable : Prop :=
  ∀ (N : Pattern16 → Pattern32) (M : Pattern32 → Pattern16),
    (∀ b, ¬ isNaN16 b → decBits N (encBits M (decBits N b)) = decBits N b) ∧
    (∀ v, isFinite32 v → (∀ b, ¬ isNaN16 b → decBits N b ≠ v) → decBits N (encBits M v) ≠ v)

/-- 42_laws.md R104. -/
def Obligations.ReencodingChangesNothing : Prop :=
  ∀ (N : Pattern16 → Pattern32) (M : Pattern32 → Pattern16) (v : Pattern32), ¬ isNaN32 v →
    encBits M (decBits N (encBits M v)) = encBits M v

/-- 42_laws.md R105: both operations commute with flipping the sign; for a NaN the DEC half holds for the sign bit, and under the defaults
both halves hold in full. -/
def Obligations.SignSymmetry : Prop :=
  (∀ (N : Pattern16 → Pattern32) (b : Pattern16), ¬ isNaN16 b →
    decBits N (b ^^^ 0x8000#16) = decBits N b ^^^ 0x80000000#32) ∧
  (∀ (M : Pattern32 → Pattern16) (v : Pattern32), ¬ isNaN32 v →
    encBits M (v ^^^ 0x80000000#32) = encBits M v ^^^ 0x8000#16) ∧
  (∀ (N : Pattern16 → Pattern32), DecNanAdmissible N → ∀ b, isNaN16 b →
    sign32 (decBits N (b ^^^ 0x8000#16)) = ~~~ sign32 (decBits N b)) ∧
  (∀ b, decBits decNanDefault (b ^^^ 0x8000#16) = decBits decNanDefault b ^^^ 0x80000000#32) ∧
  (∀ v, encBits encNanDefault (v ^^^ 0x80000000#32) = encBits encNanDefault v ^^^ 0x8000#16)

/-- 42_laws.md R107: no finite binary16 value of the same sign is nearer than the one ENC stores. -/
def Obligations.EncIsNearest : Prop :=
  ∀ (v : Pattern32) (d : SlotId) (s : State), isFinite32 v → mag32 v < 65520 → ∃ (t : State) (h : Pattern16),
    exec (.enc v d) s = .next t ∧ t.slots.read d = some h ∧
    ∀ b, isFinite16 b → sign16 b = sign32 v → |mag16 h - mag32 v| ≤ |mag16 b - mag32 v|

/-! ## The machine -/

/-- 10_state.md R33, 70_reset_and_hazards.md R126: after reset no slot holds a value. That the rest of the model's state is empty is the
model's choice (logs 3, 4 and 5). -/
def Obligations.ResetLeavesEverySlotWithoutValue : Prop :=
  (∀ d, State.reset.slots.read d = none) ∧ State.reset.response = none ∧
  State.reset.calls = [] ∧ State.reset.inputs = [] ∧ State.reset.transcript = []

/-- The invariant holds after reset. -/
def Obligations.ResetMeetsTheInvariant : Prop := State.reset.Inv

/-- Every step keeps the invariant: the slot store stays in its canonical form, no response is held between steps (10_state.md R28), and
outstanding calls respect the exclusive-writer contract (20_memory.md R45). -/
def Obligations.StepKeepsTheInvariant : Prop :=
  ∀ s t : State, s.Inv → step s = .next t → t.Inv

/-- 10_state.md R21, R30: a step that performs a call of caller `c` runs the instruction that the oldest outstanding request of `c` decodes
to, in the state with the input consumed and the call taken; then the call returns to `c`. Third clause: with no input left the oldest call
of all is performed (log 10). -/
def Obligations.StepRunsTheDecodedInstruction : Prop :=
  ∀ (s : State) (c : CallerId) (r : Request) (i : Instr) (pre post : List Call),
    s.calls = pre ++ ⟨c, r⟩ :: post → (∀ k ∈ pre, k.caller ≠ c) → decode r = .ok i →
    (∀ rest t, s.inputs = .perform c :: rest →
      exec i { s with inputs := rest, calls := pre ++ post } = .next t → step s = .next (t.returnTo c)) ∧
    (∀ t, s.inputs = [] → pre = [] →
      exec i { s with calls := post } = .next t → step s = .next (t.returnTo c)) ∧
    (∀ t : State, (∀ v, t.response = some v → t.returnTo c =
        { t with response := none, transcript := t.transcript ++ [.response c v] }) ∧
      (t.response = none → t.returnTo c = { t with transcript := t.transcript ++ [.returned c] }))

/-- What a caller does beside: a request handed over is added behind the calls outstanding (10_state.md R21), unless it is an ENC to a slot
that an outstanding ENC of another caller writes, which is refused; a write by a caller changes its slot, unless an ENC to it is outstanding,
which is refused (20_memory.md R45, R46). That a call lasts from its handing over to its return is the model's choice (log 8). -/
def Obligations.OverlappingWritersAreRefused : Prop :=
  (∀ (s : State) (c : CallerId) (r : Request) (rest : List Input), s.inputs = .call c r :: rest →
    (∀ d, r.target = some d → (∃ k ∈ s.calls, k.caller ≠ c ∧ k.request.target = some d) →
      step s = .refused (.overlappingWriters d)) ∧
    ((∀ d, r.target = some d → ∀ k ∈ s.calls, k.request.target = some d → k.caller = c) →
      step s = .next { s with inputs := rest, calls := s.calls ++ [⟨c, r⟩] })) ∧
  (∀ (s : State) (d : SlotId) (h : Pattern16) (rest : List Input), s.inputs = .write d h :: rest →
    ((∃ k ∈ s.calls, k.request.target = some d) → step s = .refused (.overlappingWriters d)) ∧
    ((∀ k ∈ s.calls, k.request.target ≠ some d) →
      step s = .next { s with inputs := rest, slots := s.slots.write d h }))

/-- 10_state.md R34: a reader of a slot that holds no value faults; of one that holds a value, it sees it and nothing changes. -/
def Obligations.ReadOfUnwrittenSlotFaults : Prop :=
  ∀ (s : State) (c : CallerId) (d : SlotId) (rest : List Input), s.inputs = .read c d :: rest →
    (s.slots.read d = none → step s = .fault (.unwrittenSlot d)) ∧
    (∀ h, s.slots.read d = some h →
      step s = .next { s with inputs := rest, transcript := s.transcript ++ [.sawSlot c d h] })

/-- 42_laws.md R106, 40_decode.md R82, 41_encode.md R95, 60_exceptions.md R110: every bit pattern decodes to some float, every float encodes
to some pattern, which its destination holds, in every state; and no operation after another stops. -/
def Obligations.OperationsNeverStop : Prop :=
  (∀ (bits : Pattern16) (s : State), ∃ (t : State) (v : Pattern32),
    exec (.dec bits) s = .next t ∧ t.response = some v) ∧
  (∀ (v : Pattern32) (d : SlotId) (s : State), ∃ (t : State) (h : Pattern16),
    exec (.enc v d) s = .next t ∧ t.slots.read d = some h) ∧
  (∀ (i j : Instr) (s : State), ∃ t u : State, exec i s = .next t ∧ exec j t = .next u)

/-- 60_exceptions.md R110 with 10_state.md R34: the only fault of a step is a read of a slot that holds no value. -/
def Obligations.OnlyUnwrittenReadsFault : Prop :=
  ∀ (s : State) (f : Fault), step s = .fault f →
    ∃ c d rest, s.inputs = .read c d :: rest ∧ s.slots.read d = none ∧ f = .unwrittenSlot d

/-- The only refusals of a step: it performs a request outside the two formats (30_encoding.md R67, R72; log 7), which is the oldest of its
caller, and of all where no input is left (log 10); or it hands an ENC over, or writes, to a slot that an outstanding ENC writes
(20_memory.md R45, R46; log 8). No reset is refused (log 9). -/
def Obligations.RefusalsHaveTheirCauses : Prop :=
  ∀ (s : State) (q : Refusal), step s = .refused q →
    (∃ (k : Call) (pre post : List Call) (e : DecodeError),
      s.calls = pre ++ k :: post ∧ (∀ m ∈ pre, m.caller ≠ k.caller) ∧
      ((s.inputs = [] ∧ pre = []) ∨ ∃ rest, s.inputs = .perform k.caller :: rest) ∧
      decode k.request = .error e ∧ k.request.wf = false ∧ q = .badRequest e) ∨
    (∃ d, q = .overlappingWriters d ∧
      ((∃ c r rest, s.inputs = .call c r :: rest ∧ r.target = some d ∧
          ∃ k ∈ s.calls, k.caller ≠ c ∧ k.request.target = some d) ∨
       (∃ h rest, s.inputs = .write d h :: rest ∧ ∃ k ∈ s.calls, k.request.target = some d)))

/-- 10_state.md R27, 70_reset_and_hazards.md R133: a slot changes only by an ENC that names it, a write of a caller that names it, or a reset of
the system. -/
def Obligations.SlotChangesOnlyByItsWriters : Prop :=
  ∀ (s t : State) (d : SlotId), step s = .next t → t.slots.read d ≠ s.slots.read d →
    (∃ k ∈ s.calls, ∃ v, decode k.request = .ok (.enc v d) ∧
      t.slots.read d = some (encBits (encNan s.draws) v) ∧
      (s.inputs = [] ∨ ∃ rest, s.inputs = .perform k.caller :: rest)) ∨
    (∃ h rest, s.inputs = .write d h :: rest ∧ t.slots.read d = some h) ∨
    (∃ rest, s.inputs = .resetSystem :: rest ∧ t.slots.read d = none)

/-- 70_reset_and_hazards.md R131, R132: a run ends. Each step of a run that is not over uses up a bound that the state gives, and a run that
never stops is over when the bound is used up. That a run that is over then stays as it is, and that calls left over are performed when no
input is left, is the model's choice (log 10). -/
def Obligations.EveryRunEnds : Prop :=
  (∀ s t : State, ¬ s.runOver → step s = .next t → t.stepsLeft < s.stepsLeft) ∧
  (∀ (s : State) (n : Nat) (t : Sys2Proof.core.State), s.stepsLeft ≤ n → Sys2Proof.core.run n s = .next t →
    State.runOver t ∧ step t = .next t)

/-- 10_state.md R31, 20_memory.md R43: two callers' operations commute. From a state that meets the invariant, the oldest calls of two callers,
performed in either order, both complete, leave the same outstanding calls and the same contents of every slot neither names; and the same
slots throughout, and to each caller the same answers, except where both operands are NaNs, whose draws depend on the order
(10_state.md R25, logs 5 and 6). -/
def Obligations.CallsOfTwoCallersCommute : Prop :=
  ∀ (s : State) (a b : CallerId) (ra rb : Request) (ia ib : Instr) (ka kb : List Call) (rest : List Input),
    s.Inv → a ≠ b →
    takeOldest a s.calls = some (ra, ka) → takeOldest b s.calls = some (rb, kb) →
    decode ra = .ok ia → decode rb = .ok ib →
    ∃ t u : State,
      Sys2Proof.core.run 2 { s with inputs := .perform a :: .perform b :: rest } = .next t ∧
      Sys2Proof.core.run 2 { s with inputs := .perform b :: .perform a :: rest } = .next u ∧
      t.calls = u.calls ∧ t.inputs = rest ∧ u.inputs = rest ∧
      t.response = none ∧ u.response = none ∧ t.draws = u.draws ∧
      (∀ d, ra.target ≠ some d → rb.target ≠ some d → t.slots.read d = s.slots.read d ∧ u.slots.read d = s.slots.read d) ∧
      ((nanOperand ia && nanOperand ib) = false → t.slots = u.slots ∧ ∀ c, t.seenBy c = u.seenBy c)

/-- 20_memory.md R40, R44 b, R51, 70_reset_and_hazards.md R129: any agent that reads the destination right after an ENC has returned sees the
whole pattern written, and one that reads it while the call is outstanding sees what the slot held before. That a concurrent reader sees one
or the other and no mixture is the spec's decision D14 (92_eei_decisions.md), log 12: unsafe for an implementation that writes the two bytes
separately. -/
def Obligations.ReadersSeeTheOldOrTheNewPattern : Prop :=
  ∀ (s : State) (c a : CallerId) (v : Pattern32) (d : SlotId) (r : Request) (k : List Call) (rest : List Input),
    takeOldest c s.calls = some (r, k) → decode r = .ok (.enc v d) →
    (s.inputs = .perform c :: .read a d :: rest →
      ∃ t : State, Sys2Proof.core.run 2 s = .next t ∧
        t.transcript = s.transcript ++ [.returned c, .sawSlot a d (encBits (encNan s.draws) v)]) ∧
    (∀ old, s.inputs = .read a d :: .perform c :: rest → s.slots.read d = some old →
      ∃ t : State, Sys2Proof.core.run 2 s = .next t ∧
        t.transcript = s.transcript ++ [.sawSlot a d old, .returned c] ∧
        t.slots.read d = some (encBits (encNan s.draws) v))

/-- 70_reset_and_hazards.md R125, R126: a reset of the block leaves every slot as it was and a reset of the system leaves every slot without a
value, whether or not calls are outstanding. That outstanding calls, coming inputs, transcript and count of draws stay as they are is the
model's choice (log 9). -/
def Obligations.ResetsOfBlockAndSystem : Prop :=
  ∀ (s : State) (rest : List Input),
    (s.inputs = .resetBlock :: rest → ∃ t, step s = .next t ∧ (∀ d, t.slots.read d = s.slots.read d) ∧
      t = { s with inputs := rest }) ∧
    (s.inputs = .resetSystem :: rest → ∃ t, step s = .next t ∧ (∀ d, t.slots.read d = none) ∧
      t = { s with inputs := rest, slots := t.slots })
end

