-- ==== Sys2Proof/Laws/State.lean ====
section
/-! SUPPORT. What each update of the state leaves in each field. -/

namespace Sys2Proof.Machine

@[simp] theorem State.slotWrite_slots (d : SlotId) (h : Pattern16) (s : State) :
    (s.slotWrite d h).slots = s.slots.write d h := rfl
@[simp] theorem State.slotWrite_response (d : SlotId) (h : Pattern16) (s : State) :
    (s.slotWrite d h).response = s.response := rfl
@[simp] theorem State.slotWrite_calls (d : SlotId) (h : Pattern16) (s : State) :
    (s.slotWrite d h).calls = s.calls := rfl
@[simp] theorem State.slotWrite_inputs (d : SlotId) (h : Pattern16) (s : State) :
    (s.slotWrite d h).inputs = s.inputs := rfl
@[simp] theorem State.slotWrite_transcript (d : SlotId) (h : Pattern16) (s : State) :
    (s.slotWrite d h).transcript = s.transcript := rfl
@[simp] theorem State.slotWrite_draws (d : SlotId) (h : Pattern16) (s : State) :
    (s.slotWrite d h).draws = s.draws := rfl

@[simp] theorem State.respond_slots (v : Pattern32) (s : State) :
    (s.respond v).slots = s.slots := rfl
@[simp] theorem State.respond_response (v : Pattern32) (s : State) :
    (s.respond v).response = some v := rfl
@[simp] theorem State.respond_calls (v : Pattern32) (s : State) :
    (s.respond v).calls = s.calls := rfl
@[simp] theorem State.respond_inputs (v : Pattern32) (s : State) :
    (s.respond v).inputs = s.inputs := rfl
@[simp] theorem State.respond_transcript (v : Pattern32) (s : State) :
    (s.respond v).transcript = s.transcript := rfl
@[simp] theorem State.respond_draws (v : Pattern32) (s : State) :
    (s.respond v).draws = s.draws := rfl

@[simp] theorem State.noResponse_slots (s : State) :
    s.noResponse.slots = s.slots := rfl
@[simp] theorem State.noResponse_response (s : State) :
    s.noResponse.response = none := rfl
@[simp] theorem State.noResponse_calls (s : State) :
    s.noResponse.calls = s.calls := rfl
@[simp] theorem State.noResponse_inputs (s : State) :
    s.noResponse.inputs = s.inputs := rfl
@[simp] theorem State.noResponse_transcript (s : State) :
    s.noResponse.transcript = s.transcript := rfl
@[simp] theorem State.noResponse_draws (s : State) :
    s.noResponse.draws = s.draws := rfl

@[simp] theorem State.drawIf_slots (b : Bool) (s : State) :
    (s.drawIf b).slots = s.slots := rfl
@[simp] theorem State.drawIf_response (b : Bool) (s : State) :
    (s.drawIf b).response = s.response := rfl
@[simp] theorem State.drawIf_calls (b : Bool) (s : State) :
    (s.drawIf b).calls = s.calls := rfl
@[simp] theorem State.drawIf_inputs (b : Bool) (s : State) :
    (s.drawIf b).inputs = s.inputs := rfl
@[simp] theorem State.drawIf_transcript (b : Bool) (s : State) :
    (s.drawIf b).transcript = s.transcript := rfl
@[simp] theorem State.drawIf_draws (b : Bool) (s : State) :
    (s.drawIf b).draws = if b then s.draws + 1 else s.draws := rfl

@[simp] theorem State.returnTo_slots (c : CallerId) (s : State) :
    (s.returnTo c).slots = s.slots := rfl
@[simp] theorem State.returnTo_response (c : CallerId) (s : State) :
    (s.returnTo c).response = none := rfl
@[simp] theorem State.returnTo_calls (c : CallerId) (s : State) :
    (s.returnTo c).calls = s.calls := rfl
@[simp] theorem State.returnTo_inputs (c : CallerId) (s : State) :
    (s.returnTo c).inputs = s.inputs := rfl
@[simp] theorem State.returnTo_draws (c : CallerId) (s : State) :
    (s.returnTo c).draws = s.draws := rfl

/-- A call that has a response returns with it. -/
theorem State.returnTo_transcript_of_response (c : CallerId) (v : Pattern32) (s : State)
    (h : s.response = some v) : (s.returnTo c).transcript = s.transcript ++ [.response c v] := by
  simp [State.returnTo, h]

/-- A call that has no response returns with nothing. -/
theorem State.returnTo_transcript_of_none (c : CallerId) (s : State)
    (h : s.response = none) : (s.returnTo c).transcript = s.transcript ++ [.returned c] := by
  simp [State.returnTo, h]

@[simp] theorem State.reset_slots : State.reset.slots = [] := rfl
@[simp] theorem State.reset_response : State.reset.response = none := rfl
@[simp] theorem State.reset_calls : State.reset.calls = [] := rfl
@[simp] theorem State.reset_inputs : State.reset.inputs = [] := rfl
@[simp] theorem State.reset_transcript : State.reset.transcript = [] := rfl
@[simp] theorem State.reset_draws : State.reset.draws = 0 := rfl

end Sys2Proof.Machine
end

