-- ==== Sys2Proof/Laws/Slots.lean ====
section
/-! SUPPORT. The slot store: read after write, and that every operation keeps the canonical form. -/

namespace Sys2Proof.Machine

@[simp] theorem SlotStore.read_nil (d : SlotId) : SlotStore.read [] d = none := rfl

theorem SlotStore.read_cons (k : SlotId) (h : Pattern16) (S : SlotStore) (d : SlotId) :
    SlotStore.read ((k, h) :: S) d = if d = k then some h else SlotStore.read S d := rfl

/-- A slot just written reads as what was written (20_memory.md R37). -/
@[simp] theorem SlotStore.read_write_self (S : SlotStore) (d : SlotId) (h : Pattern16) :
    (SlotStore.write S d h).read d = some h := by
  induction S with
  | nil => simp [SlotStore.write, SlotStore.read_cons]
  | cons e S ih =>
    obtain ⟨k, g⟩ := e
    simp only [SlotStore.write]
    split
    · simp [SlotStore.read_cons]
    · split
      · simp [SlotStore.read_cons]
      · simp [SlotStore.read_cons, *]

/-- Every other slot reads as before (20_memory.md R37). -/
theorem SlotStore.read_write_other (S : SlotStore) {d d' : SlotId} (h : Pattern16) (hne : d' ≠ d) :
    (SlotStore.write S d h).read d' = SlotStore.read S d' := by
  induction S with
  | nil => simp [SlotStore.write, SlotStore.read_cons, hne]
  | cons e S ih =>
    obtain ⟨k, g⟩ := e
    simp only [SlotStore.write]
    split
    · simp [SlotStore.read_cons, hne]
    · split
      · subst_vars
        simp [SlotStore.read_cons, hne]
      · simp [SlotStore.read_cons, ih]

@[simp] theorem SlotStore.wf_nil : SlotStore.wf [] = true := rfl

theorem SlotStore.wf_cons (k : SlotId) (h : Pattern16) (S : SlotStore) :
    SlotStore.wf ((k, h) :: S) = true ↔ (∀ e ∈ S, k < e.1) ∧ SlotStore.wf S = true := by
  simp [SlotStore.wf]

/-- The names listed after a write are those listed before and the one written. -/
theorem SlotStore.mem_write {S : SlotStore} {d : SlotId} {h : Pattern16} {e : SlotId × Pattern16}
    (he : e ∈ SlotStore.write S d h) : e = (d, h) ∨ e ∈ S := by
  induction S with
  | nil => simpa [SlotStore.write] using he
  | cons x S ih =>
    obtain ⟨k, g⟩ := x
    simp only [SlotStore.write] at he
    split at he
    · simpa using he
    · split at he
      · rcases List.mem_cons.1 he with h1 | h1
        · exact .inl h1
        · exact .inr (List.mem_cons_of_mem _ h1)
      · rcases List.mem_cons.1 he with h1 | h1
        · exact .inr (h1 ▸ List.mem_cons_self)
        · exact (ih h1).imp_right (List.mem_cons_of_mem _)

/-- A write keeps the canonical form. -/
theorem SlotStore.write_wf {S : SlotStore} (d : SlotId) (h : Pattern16) (hS : SlotStore.wf S = true) :
    SlotStore.wf (SlotStore.write S d h) = true := by
  induction S with
  | nil => simp [SlotStore.write, SlotStore.wf]
  | cons x S ih =>
    obtain ⟨k, g⟩ := x
    obtain ⟨hk, hw⟩ := (SlotStore.wf_cons ..).1 hS
    simp only [SlotStore.write]
    split
    · refine (SlotStore.wf_cons ..).2 ⟨fun e he => ?_, hS⟩
      rcases List.mem_cons.1 he with rfl | he
      · assumption
      · exact Nat.lt_trans ‹_› (hk e he)
    · split
      · subst_vars
        exact (SlotStore.wf_cons ..).2 ⟨hk, hw⟩
      · refine (SlotStore.wf_cons ..).2 ⟨fun e he => ?_, ih hw⟩
        rcases SlotStore.mem_write he with rfl | he
        · exact Nat.lt_of_le_of_ne (Nat.le_of_not_lt ‹_›) (Ne.symm ‹_›)
        · exact hk e he

/-- A slot below every listed name holds no value. -/
theorem SlotStore.read_eq_none_of_lt {S : SlotStore} {d : SlotId} (h : ∀ e ∈ S, d < e.1) :
    SlotStore.read S d = none := by
  induction S with
  | nil => rfl
  | cons x S ih =>
    obtain ⟨k, g⟩ := x
    have : d < k := h (k, g) List.mem_cons_self
    rw [SlotStore.read_cons, if_neg (Nat.ne_of_lt this), ih fun e he => h e (List.mem_cons_of_mem _ he)]

/-- Equal stores are equal data: two canonical stores that read alike are the same list. -/
theorem SlotStore.eq_of_read {S T : SlotStore} (hS : SlotStore.wf S = true) (hT : SlotStore.wf T = true)
    (h : ∀ d, SlotStore.read S d = SlotStore.read T d) : S = T := by
  induction S generalizing T with
  | nil =>
    cases T with
    | nil => rfl
    | cons y T =>
      have := h y.1
      simp [SlotStore.read] at this
  | cons x S ih =>
    obtain ⟨k, g⟩ := x
    obtain ⟨hk, hw⟩ := (SlotStore.wf_cons ..).1 hS
    cases T with
    | nil =>
      have := h k
      simp [SlotStore.read] at this
    | cons y T =>
      obtain ⟨k', g'⟩ := y
      obtain ⟨hk', hw'⟩ := (SlotStore.wf_cons ..).1 hT
      have hkk : k = k' := by
        rcases Nat.lt_trichotomy k k' with hlt | heq | hgt
        · have h1 := h k
          rw [SlotStore.read_cons, if_pos rfl, SlotStore.read_cons, if_neg (Nat.ne_of_lt hlt),
            SlotStore.read_eq_none_of_lt fun e he => Nat.lt_trans hlt (hk' e he)] at h1
          cases h1
        · exact heq
        · have h1 := h k'
          rw [SlotStore.read_cons k', if_pos rfl, SlotStore.read_cons, if_neg (Nat.ne_of_lt hgt),
            SlotStore.read_eq_none_of_lt fun e he => Nat.lt_trans hgt (hk e he)] at h1
          cases h1
      subst hkk
      have hg : g = g' := by
        have h1 := h k
        simpa [SlotStore.read_cons] using h1
      subst hg
      congr 1
      refine ih hw hw' fun d => ?_
      by_cases hd : d = k
      · subst hd
        rw [SlotStore.read_eq_none_of_lt hk, SlotStore.read_eq_none_of_lt hk']
      · have h1 := h d
        simpa [SlotStore.read_cons, hd] using h1

end Sys2Proof.Machine
end

