-- ==== Sys2Proof/Laws/Step.lean ====
section
/-! SUPPORT. What each shared operation, each meaning and one step can do. -/

namespace Sys2Proof.Machine

/-- What `handOver` can do. -/
theorem handOver_next {c : CallerId} {r : Request} {s t : State} (h : handOver c r s = .next t) :
    t = { s with calls := s.calls ++ [⟨c, r⟩] } ∧
      ∀ d, r.target = some d → otherWriter c d s.calls = false := by
  unfold handOver at h
  split at h
  · rename_i d hd
    split at h
    · cases h
    · injection h with h
      exact ⟨h.symm, fun d' hd' => by
        rw [hd] at hd'
        cases hd'
        exact Bool.eq_false_iff.2 ‹_›⟩
  · rename_i hd
    injection h with h
    exact ⟨h.symm, fun d' hd' => by rw [hd] at hd'; cases hd'⟩

/-- What `callerRead` can do. -/
theorem callerRead_next {c : CallerId} {d : SlotId} {s t : State} (h : callerRead c d s = .next t) :
    ∃ x, s.slots.read d = some x ∧ t = { s with transcript := s.transcript ++ [.sawSlot c d x] } := by
  unfold callerRead at h
  split at h
  · injection h with h
    exact ⟨_, ‹_›, h.symm⟩
  · cases h

/-- What `callerWrite` can do. -/
theorem callerWrite_next {d : SlotId} {x : Pattern16} {s t : State} (h : callerWrite d x s = .next t) :
    anyWriter d s.calls = false ∧ t = s.slotWrite d x := by
  unfold callerWrite at h
  split at h
  · cases h
  · injection h with h
    exact ⟨Bool.eq_false_iff.2 ‹_›, h.symm⟩

/-- All that `resetBlock` does. -/
theorem resetBlock_eq (s : State) : resetBlock s = .next s := rfl

/-- All that `resetSystem` does. -/
theorem resetSystem_eq (s : State) : resetSystem s = .next { s with slots := [] } := rfl

/-- A request that the decoder rejects is refused when the block performs it. -/
theorem performFor_of_error {c : CallerId} {r : Request} {s : State} {e : DecodeError} (h : decode r = .error e) :
    performFor c r s = .refused (.badRequest e) := by
  simp [performFor, h]

/-- The call taken is the first of its caller, and the others stay in their order. -/
theorem takeOldest_eq_some {c : CallerId} {calls rest : List Call} {r : Request}
    (h : takeOldest c calls = some (r, rest)) :
    ∃ pre post, calls = pre ++ ⟨c, r⟩ :: post ∧ rest = pre ++ post ∧ ∀ k ∈ pre, k.caller ≠ c := by
  induction calls generalizing rest with
  | nil => cases h
  | cons k calls ih =>
    unfold takeOldest at h
    split at h
    · injection h with h
      injection h with h1 h2
      exact ⟨[], calls, by subst h1; subst_vars; rfl, h2.symm, by simp⟩
    · obtain ⟨⟨r', rest'⟩, hp, he⟩ := Option.map_eq_some_iff.1 h
      injection he with h1 h2
      subst h1
      obtain ⟨pre, post, hc, hr, hne⟩ := ih hp
      refine ⟨k :: pre, post, by simp [hc], by simp [← h2, hr], fun x hx => ?_⟩
      rcases List.mem_cons.1 hx with rfl | hx
      · assumption
      · exact hne x hx

/-- The first call of a caller is taken. -/
theorem takeOldest_append {c : CallerId} {pre post : List Call} {r : Request}
    (hne : ∀ k ∈ pre, k.caller ≠ c) :
    takeOldest c (pre ++ ⟨c, r⟩ :: post) = some (r, pre ++ post) := by
  induction pre with
  | nil => simp [takeOldest]
  | cons k pre ih =>
    have hk : k.caller ≠ c := hne k List.mem_cons_self
    simp [takeOldest, hk, ih fun x hx => hne x (List.mem_cons_of_mem _ hx)]

/-- A caller with no outstanding call has none to take. -/
theorem takeOldest_eq_none {c : CallerId} {calls : List Call} :
    takeOldest c calls = none ↔ ∀ k ∈ calls, k.caller ≠ c := by
  induction calls with
  | nil => simp [takeOldest]
  | cons k calls ih =>
    by_cases hk : k.caller = c <;> simp [takeOldest, hk, ih]

/-- The two meanings, and all they do: neither reads or writes the calls, the inputs or the transcript. -/
theorem exec_next {i : Instr} {s t : State} (h : exec i s = .next t) :
    (∃ bits, i = .dec bits ∧ t = (s.respond (decBits (decNan s.draws) bits)).drawIf (isNaN16 bits)) ∨
    (∃ v d, i = .enc v d ∧
      t = (s.noResponse.slotWrite d (encBits (encNan s.draws) v)).drawIf (isNaN32 v)) := by
  cases i with
  | dec bits => exact .inl ⟨bits, rfl, by injection h with h; exact h.symm⟩
  | enc v d => exact .inr ⟨v, d, rfl, by injection h with h; exact h.symm⟩

/-- What performing a request can do. -/
theorem performFor_next {c : CallerId} {r : Request} {s t : State} (h : performFor c r s = .next t) :
    ∃ i u, decode r = .ok i ∧ exec i s = .next u ∧ t = u.returnTo c := by
  unfold performFor at h
  split at h
  · rename_i i hi
    cases i with
    | dec bits => exact ⟨_, _, hi, rfl, by injection h with h; exact h.symm⟩
    | enc v d => exact ⟨_, _, hi, rfl, by injection h with h; exact h.symm⟩
  · cases h

/-- What performing a call of caller `c` can do. -/
theorem perform_next {c : CallerId} {s t : State} (h : perform c s = .next t) :
    (takeOldest c s.calls = none ∧ t = s) ∨
    ∃ r rest i u, takeOldest c s.calls = some (r, rest) ∧ decode r = .ok i ∧
      exec i { s with calls := rest } = .next u ∧ t = u.returnTo c := by
  unfold perform at h
  split at h
  · obtain ⟨i, u, h1, h2, h3⟩ := performFor_next h
    exact .inr ⟨_, _, i, u, ‹_›, h1, h2, h3⟩
  · injection h with h
    exact .inl ⟨‹_›, h.symm⟩

/-- Performing a call of caller `c` stops only where the request taken is one the decoder rejects. -/
theorem perform_refused {c : CallerId} {s : State} {q : Refusal} (h : perform c s = .refused q) :
    ∃ r rest e, takeOldest c s.calls = some (r, rest) ∧ decode r = .error e ∧ q = .badRequest e := by
  unfold perform at h
  split at h
  · unfold performFor at h
    split at h
    · rename_i i _
      cases i <;> cases h
    · injection h with h
      exact ⟨_, _, _, ‹_›, ‹_›, h.symm⟩
  · cases h

/-- With an input left, the step consumes it and acts. -/
theorem step_cons {s : State} {i : Input} {rest : List Input} (h : s.inputs = i :: rest) :
    step s = act i { s with inputs := rest } := by
  simp [step, h]

/-- With no input left the oldest call is performed. -/
theorem step_nil_cons {s : State} {k : Call} {rest : List Call} (h : s.inputs = []) (hc : s.calls = k :: rest) :
    step s = perform k.caller s := by
  simp [step, h, hc]

/-- When the run is over nothing happens. -/
theorem step_runOver {s : State} (h : s.runOver) : step s = .next s := by
  simp [step, h.1, h.2]

end Sys2Proof.Machine
end

