-- ==== Sys2Proof/Laws/Fields.lean ====
section
/-! SUPPORT. The fields of a pattern put together from fields, and what the fields of DEC's and ENC's results are. -/

namespace Sys2Proof.Machine

/-- The upper part of a concatenation. -/
theorem extract_append_high {a b : Nat} (x : BitVec a) (y : BitVec b) : (x ++ y).extractLsb' b a = x := by
  refine BitVec.eq_of_getLsbD_eq fun i hi => ?_
  simp only [BitVec.getLsbD_extractLsb', BitVec.getLsbD_append, hi, decide_true, Bool.true_and]
  rw [if_neg (by omega), Nat.add_sub_cancel_left]

/-- A slice that lies within the lower part of a concatenation. -/
theorem extract_append_low {a b : Nat} (x : BitVec a) (y : BitVec b) {start len : Nat} (h : start + len ≤ b) :
    (x ++ y).extractLsb' start len = y.extractLsb' start len := by
  refine BitVec.eq_of_getLsbD_eq fun i hi => ?_
  simp only [BitVec.getLsbD_extractLsb', BitVec.getLsbD_append, hi, decide_true, Bool.true_and]
  rw [if_pos (by omega)]

/-- A slice that lies within the upper part of a concatenation. -/
theorem extract_append_above {a b : Nat} (x : BitVec a) (y : BitVec b) {start len : Nat} (h : b ≤ start) :
    (x ++ y).extractLsb' start len = x.extractLsb' (start - b) len := by
  refine BitVec.eq_of_getLsbD_eq fun i hi => ?_
  simp only [BitVec.getLsbD_extractLsb', BitVec.getLsbD_append, hi, decide_true, Bool.true_and]
  rw [if_neg (by omega)]
  congr 1
  omega

/-- The whole of a pattern is a slice of it. -/
theorem extract_all {a : Nat} (x : BitVec a) : x.extractLsb' 0 a = x := by
  refine BitVec.eq_of_getLsbD_eq fun i hi => ?_
  simp [hi]

@[simp] theorem sign16_fields (s : BitVec 1) (e : BitVec 5) (m : BitVec 10) : sign16 (s ++ e ++ m) = s := by
  rw [sign16, extract_append_above _ _ (by omega)]
  exact extract_append_high s e

@[simp] theorem expo16_fields (s : BitVec 1) (e : BitVec 5) (m : BitVec 10) : expo16 (s ++ e ++ m) = e := by
  rw [expo16, extract_append_above _ _ (by omega), extract_append_low _ _ (by omega)]
  exact extract_all e

@[simp] theorem mant16_fields (s : BitVec 1) (e : BitVec 5) (m : BitVec 10) : mant16 (s ++ e ++ m) = m := by
  rw [mant16, extract_append_low _ _ (by omega)]
  exact extract_all m

@[simp] theorem sign16_append (s : BitVec 1) (j : BitVec 15) : sign16 (s ++ j) = s :=
  extract_append_high s j

@[simp] theorem low15_append (s : BitVec 1) (j : BitVec 15) : low15 (s ++ j) = j := by
  rw [low15, extract_append_low _ _ (by omega)]
  exact extract_all j

@[simp] theorem sign32_fields (s : BitVec 1) (e : BitVec 8) (f : BitVec 23) : sign32 (s ++ e ++ f) = s := by
  rw [sign32, extract_append_above _ _ (by omega)]
  exact extract_append_high s e

@[simp] theorem expo32_fields (s : BitVec 1) (e : BitVec 8) (f : BitVec 23) : expo32 (s ++ e ++ f) = e := by
  rw [expo32, extract_append_above _ _ (by omega), extract_append_low _ _ (by omega)]
  exact extract_all e

@[simp] theorem frac32_fields (s : BitVec 1) (e : BitVec 8) (f : BitVec 23) : frac32 (s ++ e ++ f) = f := by
  rw [frac32, extract_append_low _ _ (by omega)]
  exact extract_all f

/-- `mag16` from the fields as numbers (30_encoding.md R61). -/
theorem mag16_eq (h : Pattern16) (e m : Nat) (hf : (expo16 h).toNat = e ∧ (mant16 h).toNat = m) :
    mag16 h = if e = 0 then (m : ℚ) * (2 : ℚ) ^ (-24 : ℤ) else (1024 + (m : ℚ)) * (2 : ℚ) ^ ((e : ℤ) - 25) := by
  obtain ⟨rfl, rfl⟩ := hf
  have : expo16 h = 0#5 ↔ (expo16 h).toNat = 0 := by rw [← BitVec.toNat_inj]; rfl
  simp only [mag16, this]

/-- `mag32` from the fields as numbers (30_encoding.md R64). -/
theorem mag32_eq (f : Pattern32) (E F : Nat) (hf : (expo32 f).toNat = E ∧ (frac32 f).toNat = F) :
    mag32 f = if E = 0 then (F : ℚ) * (2 : ℚ) ^ (-149 : ℤ) else (2 ^ 23 + (F : ℚ)) * (2 : ℚ) ^ ((E : ℤ) - 150) := by
  obtain ⟨rfl, rfl⟩ := hf
  have : expo32 f = 0#8 ↔ (expo32 f).toNat = 0 := by rw [← BitVec.toNat_inj]; rfl
  simp only [mag32, this]

/-- DEC of a pattern that is no NaN does not look at `DEC_NAN` (40_decode.md R75). -/
theorem decBits_of_not_nan (N N' : Pattern16 → Pattern32) {b : Pattern16} (h : ¬ isNaN16 b) :
    decBits N b = decBits N' b := by
  unfold decBits
  split <;> first | rfl | skip
  rename_i hc
  exfalso
  unfold class16 at hc
  split at hc
  · split at hc <;> cases hc
  · split at hc
    · split at hc
      · cases hc
      · exact h ⟨‹_›, ‹_›⟩
    · cases hc

/-- ENC of a pattern that is no NaN does not look at `ENC_NAN` (41_encode.md R85). -/
theorem encBits_of_not_nan (M M' : Pattern32 → Pattern16) {v : Pattern32} (h : ¬ isNaN32 v) :
    encBits M v = encBits M' v := by
  simp only [encBits, if_neg h]

/-- ENC of a finite pattern (41_encode.md R88, R93). -/
theorem encBits_of_finite (M : Pattern32 → Pattern16) {v : Pattern32} (h : isFinite32 v) :
    encBits M v = encFinite v := by
  rw [encBits, if_neg fun hn => h hn.1, if_neg fun hi => h hi.1]

/-- The lowest fraction bit of DEC's response to a pattern that is no NaN is clear. -/
theorem decBits_lowest_bit (N : Pattern16 → Pattern32) {b : Pattern16} (h : ¬ isNaN16 b) :
    (decBits N b).getLsbD 0 = false := by
  have key : ∀ (x : BitVec 9) (y : BitVec 23), y.getLsbD 0 = false → (x ++ y).getLsbD 0 = false := fun x y hy => by
    rw [BitVec.getLsbD_append, if_pos (by omega)]
    exact hy
  unfold decBits
  split
  · exact key _ _ rfl
  · refine key _ _ ?_
    have hlog : (mant16 b).toNat.log2 ≤ 9 := by
      by_cases h0 : (mant16 b).toNat = 0
      · simp [h0]
      · exact Nat.le_of_lt_succ ((Nat.log2_lt h0).2 (mant16 b).isLt)
    rw [BitVec.getLsbD_ofNat, Nat.testBit_mod_two_pow, Nat.testBit_shiftLeft]
    simp
    omega
  · exact key _ _ rfl
  · rename_i hc
    exfalso
    unfold class16 at hc
    split at hc
    · split at hc <;> cases hc
    · split at hc
      · split at hc
        · cases hc
        · exact h ⟨‹_›, ‹_›⟩
      · cases hc
  · refine key _ _ ?_
    rw [BitVec.getLsbD_ofNat, Nat.testBit_shiftLeft]
    simp

end Sys2Proof.Machine
end

