-- ==== Sys2Proof/Laws/PerInstr.lean ====
section
/-! SUPPORT. Statements made per instruction (LAWS.json): the request an instruction is encoded as has the shape
of its format (30_encoding.md R68, R69). -/

namespace Sys2Proof.Laws.RequestShape

/-- The request of an instruction is well formed. -/
def Statement (i : Instr) : Prop := (encode i).wf = true

theorem dec (bits : Pattern16) : Statement (.dec bits) := by
  have h1 : (0#17 ++ bits : OpWord).getLsbD 32 = false := by
    rw [BitVec.getLsbD_append, if_neg (by decide)]
    rfl
  have h2 : (0#17 ++ bits : OpWord).extractLsb' 16 16 = 0#16 := by
    refine BitVec.eq_of_getLsbD_eq fun i hi => ?_
    simp only [BitVec.getLsbD_extractLsb', BitVec.getLsbD_append, BitVec.getLsbD_zero]
    rw [if_neg (by omega)]
    simp
  show (if (0#17 ++ bits : OpWord).getLsbD 32 then false
    else ((0#17 ++ bits : OpWord).extractLsb' 16 16 == 0#16) && true) = true
  rw [h1, h2]
  rfl

theorem enc (value : Pattern32) (dst : SlotId) : Statement (.enc value dst) := by
  have h1 : (1#1 ++ value : OpWord).getLsbD 32 = true := by
    rw [BitVec.getLsbD_append, if_neg (by decide)]
    rfl
  show (if (1#1 ++ value : OpWord).getLsbD 32 then true
    else ((1#1 ++ value : OpWord).extractLsb' 16 16 == 0#16) && false) = true
  rw [h1]
  rfl

end Sys2Proof.Laws.RequestShape
end

