-- ==== Sys2Proof/Tests/Slice0.lean ====
section
/-! SUPPORT. The model's own tests. Expected results are the spec's: its worked values (95_test_vectors.md section 1),
its derived vectors (sections 2 to 4), its wrong answers (section 6), its landmarks (30_encoding.md R65). Then, for each
statement that has hypotheses, a witness that meets them. -/

open Sys2Proof Sys2Proof.Machine

/-! ## Requests: each check of WellFormed refuses an ill-formed request, and the decoder refuses it by name -/

theorem test_wf_refuses_reserved_word : Request.wf ⟨0x000013C00#33, none⟩ = false := by decide
theorem test_wf_refuses_missing_destination : Request.wf ⟨0x13F800000#33, none⟩ = false := by decide
theorem test_wf_refuses_stray_destination : Request.wf ⟨0x000003C00#33, some 0⟩ = false := by decide

theorem test_decode_refuses_reserved_word :
    decode ⟨0x000013C00#33, none⟩ = .error (.reservedWord 0x000013C00#33) ∧
    decode ⟨0x080000000#33, none⟩ = .error (.reservedWord 0x080000000#33) := by decide
theorem test_decode_refuses_missing_destination :
    decode ⟨0x13F800000#33, none⟩ = .error (.missingDestination 0x13F800000#33) := by decide
theorem test_decode_refuses_stray_destination :
    decode ⟨0x000003C00#33, some 0⟩ = .error (.strayDestination 0x000003C00#33) := by decide

/-- Format H written out bit by bit (30_encoding.md R68): op, reserved, `bits`. -/
theorem test_decode_dec_bits :
    decode ⟨0b0_0000000000000000_0011110000000001#33, none⟩ = .ok (.dec 0x3C01#16) := by decide

/-- Format F written out bit by bit (30_encoding.md R69): op, `value`. -/
theorem test_decode_enc_bits :
    decode ⟨0b1_10111111100000000000000000000001#33, some 5⟩ = .ok (.enc 0xBF800001#32 5) := by decide

theorem test_encode_words :
    encode (.dec 0x3C00#16) = ⟨0x000003C00#33, none⟩ ∧
    encode (.enc 0x3F800000#32 3) = ⟨0x13F800000#33, some 3⟩ := by decide

/-- The opcode map is the table's two rows (30_encoding.md R71). -/
theorem test_opcode_map :
    opcodeMap.map (fun r => (r.pattern, r.mask)) =
      [(0x000000000#33, 0x1FFFF0000#33), (0x100000000#33, 0x100000000#33)] := by decide

theorem test_table_word :
    decodeTableWord 40 0x000003C00 = some (.dec 0x3C00#16) ∧
    decodeTableWord 40 0x13F800000 = some (.enc 0x3F800000#32 0) ∧
    decodeTableWord 40 0x000013C00 = none ∧ decodeTableWord 40 0x213F800000 = none := by decide

/-! ## DEC and ENC, each on the spec's values -/

/-- S1 to S5 and S12, and the derived vectors at the ends of each class. -/
theorem test_dec_values :
    decBits decNanDefault 0x0000#16 = 0x00000000#32 ∧ decBits decNanDefault 0x8000#16 = 0x80000000#32 ∧
    decBits decNanDefault 0x7C00#16 = 0x7F800000#32 ∧ decBits decNanDefault 0xFC00#16 = 0xFF800000#32 ∧
    decBits decNanDefault 0x3C00#16 = 0x3F800000#32 ∧ decBits decNanDefault 0x0001#16 = 0x33800000#32 ∧
    decBits decNanDefault 0x0003#16 = 0x34400000#32 ∧ decBits decNanDefault 0x83FF#16 = 0xB87FC000#32 ∧
    decBits decNanDefault 0x0400#16 = 0x38800000#32 ∧ decBits decNanDefault 0xFBFF#16 = 0xC77FE000#32 ∧
    decBits decNanDefault 0x7C01#16 = 0x7FC02000#32 ∧ decBits decNanDefault 0xFFFF#16 = 0xFFFFE000#32 := by decide

/-- One DEC of the machine: the response, and the slots untouched. -/
theorem test_dec_step :
    exec (.dec 0x3555#16) State.reset = .next { State.reset with response := some 0x3EAAA000#32 } := rfl

/-- S6 to S10 and S13, the ties of section 6, and the default NaNs. -/
theorem test_enc_values :
    encBits encNanDefault 0x3F800000#32 = 0x3C00#16 ∧ encBits encNanDefault 0xBF800000#32 = 0xBC00#16 ∧
    encBits encNanDefault 0x477FE000#32 = 0x7BFF#16 ∧ encBits encNanDefault 0x477FF000#32 = 0x7C00#16 ∧
    encBits encNanDefault 0x7F800000#32 = 0x7C00#16 ∧ encBits encNanDefault 0x33800000#32 = 0x0001#16 ∧
    encBits encNanDefault 0x3F801001#32 = 0x3C01#16 ∧ encBits encNanDefault 0x3F801000#32 = 0x3C00#16 ∧
    encBits encNanDefault 0x3F803000#32 = 0x3C02#16 ∧ encBits encNanDefault 0x33000001#32 = 0x0001#16 ∧
    encBits encNanDefault 0xB3000000#32 = 0x8000#16 ∧ encBits encNanDefault 0x387FE000#32 = 0x0400#16 ∧
    encBits encNanDefault 0x3FFFF000#32 = 0x4000#16 ∧ encBits encNanDefault 0x477FE001#32 = 0x7BFF#16 ∧
    encBits encNanDefault 0x47FFE000#32 = 0x7C00#16 ∧ encBits encNanDefault 0x48000000#32 = 0x7C00#16 ∧
    encBits encNanDefault 0x7F800001#32 = 0x7E00#16 ∧ encBits encNanDefault 0x7FFFFFFF#32 = 0x7FFF#16 := by decide

/-- One ENC of the machine over a slot already written, and another slot untouched. -/
theorem test_enc_step :
    exec (.enc 0x477FF000#32 2) { State.reset with slots := [(1, 5#16), (2, 0x7BFF#16)] } =
      .next { State.reset with slots := [(1, 5#16), (2, 0x7C00#16)] } := rfl

/-! ## Value functions (30_encoding.md R65) -/

theorem test_mag16_landmarks :
    mag16 0x0001#16 = (2 : ℚ) ^ (-24 : ℤ) ∧ mag16 0x03FF#16 = 1023 * (2 : ℚ) ^ (-24 : ℤ) ∧
    mag16 0x0400#16 = (2 : ℚ) ^ (-14 : ℤ) ∧ mag16 0x3C00#16 = 1 ∧ mag16 0x7BFF#16 = 65504 := by
  rw [mag16_eq 0x0001#16 0 1 (by decide), mag16_eq 0x03FF#16 0 1023 (by decide), mag16_eq 0x0400#16 1 0 (by decide),
    mag16_eq 0x3C00#16 15 0 (by decide), mag16_eq 0x7BFF#16 30 1023 (by decide)]
  norm_num

theorem test_mag32_landmarks :
    mag32 0x33800000#32 = (2 : ℚ) ^ (-24 : ℤ) ∧ mag32 0x33000000#32 = (2 : ℚ) ^ (-25 : ℤ) ∧
    mag32 0x3F800000#32 = 1 ∧ mag32 0x477FF000#32 = 65520 ∧ mag32 0x47800000#32 = 65536 ∧
    mag32 0x00000001#32 = (2 : ℚ) ^ (-149 : ℤ) := by
  rw [mag32_eq 0x33800000#32 103 0 (by decide), mag32_eq 0x33000000#32 102 0 (by decide),
    mag32_eq 0x3F800000#32 127 0 (by decide), mag32_eq 0x477FF000#32 142 0x7FF000 (by decide),
    mag32_eq 0x47800000#32 143 0 (by decide), mag32_eq 0x00000001#32 0 1 (by decide)]
  norm_num

/-! ## Bytes and assembly -/

theorem test_slot_bytes :
    SlotStore.byte .little [(3, 0x3C01#16)] 6 = some 0x01#8 ∧ SlotStore.byte .little [(3, 0x3C01#16)] 7 = some 0x3C#8 ∧
    SlotStore.byte .big [(3, 0x3C01#16)] 6 = some 0x3C#8 ∧ SlotStore.byte .big [(3, 0x3C01#16)] 7 = some 0x01#8 ∧
    SlotStore.byte .big [(3, 0x3C01#16)] 8 = none := by decide

/-- A naming of slots for the tests: slot `d` is called by `d` letters `a`. -/
def testNameOf (d : SlotId) : List Char := List.replicate d 'a'

/-- The slot such a name stands for. -/
def testSlotOf (name : List Char) : Option SlotId := some name.length

theorem test_assembly_text :
    assemblyOf testNameOf (.enc 0x3F80000A#32 1) = "ENC 0x3F80000A, @a".toList ∧
    parseAssembly testSlotOf "DEC  0x3C00              ; W = 0x000003C00".toList = some (.dec 0x3C00#16) ∧
    parseAssembly testSlotOf "ENC 0x477FE000, @aa      ; 65504".toList = some (.enc 0x477FE000#32 2) ∧
    parseAssembly testSlotOf "DEC 0x3C0".toList = none := by decide

/-! ## Steps -/

/-- A small state: caller 0 has `k` outstanding, and `i` is the next input. -/
def testState (k : Call) (i : Input) : State := { State.reset with calls := [k], inputs := [i] }

/-- A state whose next input performs a call that stands behind another caller's and whose request is rejected. -/
def testRejected : State :=
  { State.reset with
    calls := [⟨0, encode (.dec 1#16)⟩, ⟨1, ⟨0x100000000#33, none⟩⟩]
    inputs := [.perform 1] }

theorem test_fetch_word_runs_next :
    step (State.reset.withFetchWord 40 0x13F800000) =
      .next { State.reset with slots := [(0, 0x3C00#16)], transcript := [.returned 0] } := rfl

theorem test_step_returns_response :
    step (testState ⟨0, encode (.dec 0x3C00#16)⟩ (.perform 0)) =
      .next { State.reset with transcript := [.response 0 0x3F800000#32] } := rfl

theorem test_step_refuses_overlap :
    step (testState ⟨0, encode (.enc 1#32 4)⟩ (.call 1 (encode (.enc 2#32 4)))) =
      .refused (.overlappingWriters 4) := rfl

/-- A reset of the block during an outstanding call keeps the slots and the call (R126). -/
theorem test_reset_block_during_call :
    step { testState ⟨0, encode (.dec 1#16)⟩ .resetBlock with slots := [(1, 5#16)] } =
      .next { State.reset with slots := [(1, 5#16)], calls := [⟨0, encode (.dec 1#16)⟩] } := rfl

theorem test_step_read_unwritten : step { State.reset with inputs := [.read 0 9] } = .fault (.unwrittenSlot 9) := rfl

/-! ## Witnesses: the hypotheses of each statement can be met -/

theorem witness_accepted_request : decode (encode (.enc 3#32 4)) = .ok (.enc 3#32 4) := by decide

/-- At the ends of each row's range, and neither row for a reserved word. -/
theorem witness_opcode_rows :
    (0x00000FFFF#33 &&& 0x1FFFF0000#33 = 0x000000000#33) ∧ (0x100000000#33 &&& 0x100000000#33 = 0x100000000#33) ∧
    (0x1FFFFFFFF#33 &&& 0x100000000#33 = 0x100000000#33) ∧
    ¬ (0x000010000#33 &&& 0x1FFFF0000#33 = 0x000000000#33) := by decide

/-- Reserved words at both ends of their range, a word of each format with the wrong destination at both ends, and
the calls that perform a rejected request: behind another caller's call, and as the oldest with no input left. -/
theorem witness_reserved_word :
    ((0x000010000#33).getLsbD 32 = false ∧ (0x000010000#33).extractLsb' 16 16 ≠ 0#16 ∧
      (0x0FFFFFFFF#33).getLsbD 32 = false ∧ (0x0FFFFFFFF#33).extractLsb' 16 16 ≠ 0#16) ∧
    ((0x100000000#33).getLsbD 32 = true ∧ (0x1FFFFFFFF#33).getLsbD 32 = true) ∧
    ((0x000000000#33).getLsbD 32 = false ∧ (0x000000000#33).extractLsb' 16 16 = 0#16 ∧
      (0x00000FFFF#33).getLsbD 32 = false ∧ (0x00000FFFF#33).extractLsb' 16 16 = 0#16) ∧
    (testRejected.calls = [⟨0, encode (.dec 1#16)⟩] ++ ⟨1, ⟨0x100000000#33, none⟩⟩ :: [] ∧
      (∀ k ∈ [(⟨0, encode (.dec 1#16)⟩ : Call)], k.caller ≠ 1) ∧
      decode ⟨0x100000000#33, none⟩ = .error (.missingDestination 0x100000000#33) ∧
      testRejected.inputs = .perform 1 :: []) ∧
    (({ State.reset with calls := [⟨1, ⟨0x100000000#33, none⟩⟩] } : State).calls = [] ++ ⟨1, ⟨0x100000000#33, none⟩⟩ :: [] ∧
      ({ State.reset with calls := [⟨1, ⟨0x100000000#33, none⟩⟩] } : State).inputs = []) := by decide

theorem witness_assembly_naming :
    (∀ d, testSlotOf (testNameOf d) = some d) ∧
    (∀ d, ' ' ∉ testNameOf d ∧ ',' ∉ testNameOf d ∧ ';' ∉ testNameOf d) := by
  refine ⟨fun d => by simp [testSlotOf, testNameOf], fun d => ?_⟩
  simp only [testNameOf, List.mem_replicate]
  exact ⟨fun h => absurd h.2 (by decide), fun h => absurd h.2 (by decide), fun h => absurd h.2 (by decide)⟩

/-- The smallest and the largest subnormal. -/
theorem witness_dec_subnormal :
    2 ^ 0 ≤ (1#10).toNat ∧ (1#10).toNat < 2 ^ (0 + 1) ∧ 2 ^ 9 ≤ (1023#10).toNat ∧ (1023#10).toNat < 2 ^ (9 + 1) := by
  decide

/-- The smallest and the largest exponent field of a normal. -/
theorem witness_dec_normal :
    1 ≤ (1#5).toNat ∧ (1#5).toNat ≤ 30 ∧ 1 ≤ (30#5).toNat ∧ (30#5).toNat ≤ 30 := by decide

theorem witness_dec_nan : (1#10) ≠ 0#10 ∧ isNaN16 0x7C01#16 := by decide

/-- Patterns that are no NaN: both ends of the finite range, and the infinities. -/
theorem witness_not_nan16 :
    ¬ isNaN16 0x0000#16 ∧ isFinite16 0x0000#16 ∧ ¬ isNaN16 0x7BFF#16 ∧ isFinite16 0x7BFF#16 ∧ ¬ isNaN16 0x7C00#16 ∧
    ¬ isNaN16 0xFC00#16 := by decide

theorem witness_dec_order :
    (0x7C00#16).toNat ≤ 0x7C00 ∧ (0x7BFF#16).toNat < (0x7C00#16).toNat ∧ ¬ isNaN16 0xFBFF#16 ∧ ¬ isNaN16 0xFC00#16 ∧
    sign16 0xFBFF#16 = sign16 0xFC00#16 ∧ (low15 0xFBFF#16).toNat < (low15 0xFC00#16).toNat := by decide

theorem witness_not_nan32 :
    ¬ isNaN32 0x00000000#32 ∧ isFinite32 0x00000000#32 ∧ ¬ isNaN32 0x7F800000#32 ∧ isFinite32 0x7F7FFFFF#32 := by decide

/-- Both disjuncts of the hypothesis of the statements on what a result depends on. -/
theorem witness_depends_on_operand :
    (¬ isNaN16 0x3C00#16 ∧ ¬ isNaN32 0x3F800000#32) ∧
    (isNaN16 0x7C01#16 ∧ isNaN32 0x7F800001#32 ∧
      State.reset.draws = { State.reset with slots := [(1, 1#16)] }.draws) := by decide

/-- Each range of the statement on underflow, at its ends. -/
theorem witness_underflow_ranges :
    underflows 0x33000000#32 ∧ expo32 0x007FFFFF#32 = 0#8 ∧
    (isFinite32 0x33000001#32 ∧ (2 : ℚ) ^ (-25 : ℤ) < mag32 0x33000001#32 ∧
      mag32 0x33000001#32 < (2 : ℚ) ^ (-24 : ℤ)) ∧
    (isFinite32 0x33800000#32 ∧ (2 : ℚ) ^ (-24 : ℤ) ≤ mag32 0x33800000#32 ∧
      mag32 0x33800000#32 < 1023.5 * (2 : ℚ) ^ (-24 : ℤ)) ∧
    (isFinite32 0x387FE000#32 ∧ 1023.5 * (2 : ℚ) ^ (-24 : ℤ) ≤ mag32 0x387FE000#32 ∧
      mag32 0x387FE000#32 < (2 : ℚ) ^ (-14 : ℤ)) := by
  unfold underflows
  rw [mag32_eq 0x33000000#32 102 0 (by decide), mag32_eq 0x33000001#32 102 1 (by decide), mag32_eq 0x33800000#32 103 0 (by decide), mag32_eq 0x387FE000#32 112 8380416 (by decide)]
  refine ⟨⟨by decide, ?_⟩, by decide, ⟨by decide, ?_, ?_⟩, ⟨by decide, ?_, ?_⟩, ⟨by decide, ?_, ?_⟩⟩ <;> norm_num

/-- The overflow threshold, and the first operand above the largest finite value. -/
theorem witness_overflow_ranges :
    overflows 0x477FF000#32 ∧
    (isFinite32 0x477FE001#32 ∧ 65504 < mag32 0x477FE001#32 ∧ mag32 0x477FE001#32 < 65520) := by
  unfold overflows
  rw [mag32_eq 0x477FF000#32 142 8384512 (by decide), mag32_eq 0x477FE001#32 142 8380417 (by decide)]
  refine ⟨⟨by decide, ?_⟩, ⟨by decide, ?_, ?_⟩⟩ <;> norm_num

theorem witness_enc_nan : isNaN32 0x7F800001#32 := by decide

/-- The first and the last exponent field of each row of the table, and both halves of rows 102 and 142. -/
theorem witness_exponent_rows :
    [0x00000000#32, 0x32FFFFFF#32, 0x33000000#32, 0x33000001#32, 0x33800000#32, 0x387FFFFF#32, 0x38800000#32,
      0x46FFFFFF#32, 0x477FEFFF#32, 0x477FF000#32, 0x47800000#32, 0x7F7FFFFF#32].map
        (fun v => ((expo32 v).toNat, decide ((frac32 v).toNat = 0), decide ((frac32 v).toNat < 0x7FF000))) =
    [(0, true, true), (101, false, false), (102, true, true), (102, false, true), (103, true, true), (112, false, false),
      (113, true, true), (141, false, false), (142, false, true), (142, false, false), (143, true, true),
      (254, false, false)] := by decide

theorem witness_enc_monotone :
    isFinite32 0x33000000#32 ∧ isFinite32 0x33800000#32 ∧ sign32 0x33000000#32 = sign32 0x33800000#32 ∧
    mag32 0x33000000#32 ≤ mag32 0x33800000#32 := by
  rw [mag32_eq 0x33000000#32 102 0 (by decide), mag32_eq 0x33800000#32 103 0 (by decide)]
  refine ⟨by decide, by decide, by decide, ?_⟩
  norm_num

/-- Below `2^-13`, and the first and the last binade of the error bound. -/
theorem witness_error_ranges :
    (isFinite32 0x38FFFFFF#32 ∧ ¬ overflows 0x38FFFFFF#32 ∧ mag32 0x38FFFFFF#32 < (2 : ℚ) ^ (-13 : ℤ) ∧
      (2 : ℚ) ^ (-14 : ℤ) ≤ mag32 0x38FFFFFF#32 ∧ mag32 0x38FFFFFF#32 < (2 : ℚ) ^ (-14 + 1 : ℤ)) ∧
    (isFinite32 0x477FEFFF#32 ∧ ¬ overflows 0x477FEFFF#32 ∧ (2 : ℚ) ^ (15 : ℤ) ≤ mag32 0x477FEFFF#32 ∧
      mag32 0x477FEFFF#32 < (2 : ℚ) ^ (15 + 1 : ℤ)) := by
  unfold overflows
  rw [mag32_eq 0x38FFFFFF#32 113 8388607 (by decide), mag32_eq 0x477FEFFF#32 142 8384511 (by decide)]
  refine ⟨⟨by decide, fun h => absurd h.2 ?_, ?_, ?_, ?_⟩, ⟨by decide, fun h => absurd h.2 ?_, ?_, ?_⟩⟩ <;> norm_num

/-- Parameters that meet the two constraints: the fraction and the mantissa with their lowest bit alone. -/
theorem witness_admissible_parameters :
    DecNanAdmissible (fun b => sign16 b ++ 0xFF#8 ++ 1#23) ∧ EncNanAdmissible (fun _ => 0#1 ++ 0b11111#5 ++ 1#10) := by
  refine ⟨fun b _ => ?_, fun v _ => ?_⟩
  · rw [sign32_fields, expo32_fields, frac32_fields]
    exact ⟨rfl, rfl, by decide⟩
  · rw [expo16_fields, mant16_fields]
    exact ⟨rfl, by decide⟩

/-- A finite binary32 pattern that is the response of no DEC on a pattern that is no NaN. -/
theorem witness_not_representable (N : Pattern16 → Pattern32) :
    isFinite32 0x3F801001#32 ∧ ∀ b, ¬ isNaN16 b → decBits N b ≠ 0x3F801001#32 := by
  refine ⟨by decide, fun b hb he => ?_⟩
  have h := decBits_lowest_bit N hb
  rw [he] at h
  exact absurd h (by decide)

theorem witness_nearest :
    isFinite32 0x477FEFFF#32 ∧ mag32 0x477FEFFF#32 < 65520 ∧ isFinite16 0x7BFF#16 ∧
    sign16 0x7BFF#16 = sign32 0x477FEFFF#32 := by
  rw [mag32_eq 0x477FEFFF#32 142 8384511 (by decide)]
  refine ⟨by decide, ?_, by decide, by decide⟩
  norm_num

/-- A magnitude below `2^16` and one from there on. -/
theorem witness_rounding_ranges : (0 : ℚ) ≤ 1 ∧ (1 : ℚ) < 2 ^ 16 ∧ (0 : ℚ) ≤ 2 ^ 16 := by norm_num

/-- A state that meets the invariant, with two callers' calls outstanding, and takes a step. -/
def testTwoCallers : State :=
  { State.reset with
    slots := [(1, 1#16)]
    calls := [⟨0, encode (.enc 0x3F800000#32 1)⟩, ⟨1, encode (.enc 0x40000000#32 2)⟩]
    inputs := [.perform 1] }

theorem witness_invariant_step :
    testTwoCallers.Inv ∧ ∃ t, step testTwoCallers = .next t :=
  ⟨⟨by decide, by decide, by decide⟩, _, rfl⟩

theorem witness_two_callers :
    testTwoCallers.Inv ∧ (0 : CallerId) ≠ 1 ∧
    takeOldest 0 testTwoCallers.calls =
      some (encode (.enc 0x3F800000#32 1), [⟨1, encode (.enc 0x40000000#32 2)⟩]) ∧
    takeOldest 1 testTwoCallers.calls =
      some (encode (.enc 0x40000000#32 2), [⟨0, encode (.enc 0x3F800000#32 1)⟩]) ∧
    decode (encode (.enc 0x3F800000#32 1)) = .ok (.enc 0x3F800000#32 1) ∧
    decode (encode (.enc 0x40000000#32 2)) = .ok (.enc 0x40000000#32 2) ∧
    (nanOperand (.enc 0x3F800000#32 1) && nanOperand (.enc 0x40000000#32 2)) = false :=
  ⟨⟨by decide, by decide, by decide⟩, by decide, by decide, by decide, by decide, by decide, by decide⟩

/-- A caller whose call stands behind another's, with the input that performs it; and the oldest call, with no input. -/
theorem witness_step_runs :
    testTwoCallers.calls =
      [⟨0, encode (.enc 0x3F800000#32 1)⟩] ++ ⟨1, encode (.enc 0x40000000#32 2)⟩ :: [] ∧
    (∀ k ∈ [(⟨0, encode (.enc 0x3F800000#32 1)⟩ : Call)], k.caller ≠ 1) ∧
    decode (encode (.enc 0x40000000#32 2)) = .ok (.enc 0x40000000#32 2) ∧
    testTwoCallers.inputs = .perform 1 :: [] ∧
    ({ testTwoCallers with inputs := [] } : State).inputs = [] := by decide

/-- Each input of the statement on overlapping writers: refused, and admitted. -/
theorem witness_overlap :
    (∃ k ∈ testTwoCallers.calls, k.caller ≠ 1 ∧ k.request.target = some 1) ∧
    (∀ k ∈ testTwoCallers.calls, k.request.target = some 2 → k.caller = 1) ∧
    (∃ k ∈ testTwoCallers.calls, k.request.target = some 2) ∧
    (∀ k ∈ testTwoCallers.calls, k.request.target ≠ some 3) ∧
    (encode (.enc 9#32 1)).target = some 1 ∧ (encode (.enc 9#32 2)).target = some 2 := by decide

/-- A step that faults, steps that are refused for each cause, and one that changes a slot in each way. -/
theorem witness_stops_and_changes :
    step { State.reset with inputs := [.read 0 0] } = .fault (.unwrittenSlot 0) ∧
    step (testState ⟨0, ⟨0x000010000#33, none⟩⟩ (.perform 0)) = .refused (.badRequest (.reservedWord 0x000010000#33)) ∧
    step testRejected = .refused (.badRequest (.missingDestination 0x100000000#33)) ∧
    step { testTwoCallers with inputs := [.call 1 (encode (.enc 9#32 1))] } = .refused (.overlappingWriters 1) ∧
    step { testTwoCallers with inputs := [.write 2 7#16] } = .refused (.overlappingWriters 2) ∧
    step { testTwoCallers with inputs := [.write 3 7#16] } =
      .next { testTwoCallers with inputs := [], slots := [(1, 1#16), (3, 7#16)] } ∧
    step { State.reset with slots := [(1, 1#16)], inputs := [.resetSystem] } = .next State.reset :=
  ⟨rfl, rfl, rfl, rfl, rfl, rfl, rfl⟩

/-- A slot that holds a value and one that holds none, each about to be read. -/
theorem witness_reads :
    ({ testTwoCallers with inputs := [.read 0 1] } : State).slots.read 1 = some 1#16 ∧
    ({ testTwoCallers with inputs := [.read 0 7] } : State).slots.read 7 = none := by decide

/-- A run that is not over, and the end of a run of two steps. -/
theorem witness_run :
    ¬ (testState ⟨0, encode (.dec 0x3C00#16)⟩ (.read 0 0)).runOver ∧
    (testState ⟨0, encode (.dec 0x3C00#16)⟩ (.perform 0)).stepsLeft ≤ 3 ∧
    ∃ t, Sys2Proof.core.run 3 (testState ⟨0, encode (.dec 0x3C00#16)⟩ (.perform 0)) = .next t :=
  ⟨by decide, by decide, _, rfl⟩

/-- An ENC about to be performed, and an agent about to read the slot, after the step and before it. -/
theorem witness_readers :
    takeOldest 0 testTwoCallers.calls =
      some (encode (.enc 0x3F800000#32 1), [⟨1, encode (.enc 0x40000000#32 2)⟩]) ∧
    decode (encode (.enc 0x3F800000#32 1)) = .ok (.enc 0x3F800000#32 1) ∧
    ({ testTwoCallers with inputs := [.perform 0, .read 5 1] } : State).inputs = .perform 0 :: .read 5 1 :: [] ∧
    ({ testTwoCallers with inputs := [.read 5 1, .perform 0] } : State).inputs = .read 5 1 :: .perform 0 :: [] ∧
    testTwoCallers.slots.read 1 = some 1#16 := by decide

/-- Each reset with a call outstanding, and with none. -/
theorem witness_resets :
    ({ testTwoCallers with inputs := [.resetBlock] } : State).inputs = .resetBlock :: [] ∧
    ({ testTwoCallers with inputs := [.resetSystem] } : State).inputs = .resetSystem :: [] ∧
    ({ State.reset with inputs := [.resetBlock] } : State).inputs = .resetBlock :: [] ∧
    ({ State.reset with inputs := [.resetSystem] } : State).inputs = .resetSystem :: [] := by decide
end

section
/-! PROOFS. The statements of 10_state.md: the reset state, what a step does, the invariant, and the commuting of two callers. -/

namespace Sys2Proof.Machine

/-! ## The exclusive-writer contract -/

/-- No caller but `c` has an ENC to slot `d` outstanding. -/
theorem otherWriter_eq_false {c : CallerId} {d : SlotId} {calls : List Call} :
    otherWriter c d calls = false ↔ ∀ k ∈ calls, k.request.target = some d → k.caller = c := by
  simp only [otherWriter, List.any_eq_false, Bool.and_eq_true, decide_eq_true_eq, not_and, not_imp_not]

/-- The contract, said of two calls: those that write one slot belong to one caller (20_memory.md R45). -/
theorem exclusiveWriters_iff {calls : List Call} :
    exclusiveWriters calls = true ↔
      ∀ k ∈ calls, ∀ m ∈ calls, ∀ d, k.request.target = some d → m.request.target = some d →
        m.caller = k.caller := by
  simp only [exclusiveWriters, List.all_eq_true]
  refine forall₂_congr fun k _ => ?_
  cases hk : k.request.target with
  | none => simp
  | some d =>
    simp only [Bool.not_eq_true', otherWriter_eq_false, Option.some.injEq]
    exact ⟨fun h m hm d' hd hm' => h m hm (hd ▸ hm'), fun h m hm => h m hm d rfl⟩

/-- Fewer calls keep the contract. -/
theorem exclusiveWriters_of_subset {calls rest : List Call} (h : exclusiveWriters calls = true)
    (hsub : rest ⊆ calls) : exclusiveWriters rest = true :=
  exclusiveWriters_iff.2 fun k hk m hm => exclusiveWriters_iff.1 h k (hsub hk) m (hsub hm)

/-- One more call keeps the contract where no other caller writes its destination. -/
theorem exclusiveWriters_append {calls : List Call} {c : CallerId} {r : Request}
    (h : exclusiveWriters calls = true) (hr : ∀ d, r.target = some d → otherWriter c d calls = false) :
    exclusiveWriters (calls ++ [⟨c, r⟩]) = true := by
  have hnew : ∀ k ∈ calls, ∀ d, r.target = some d → k.request.target = some d → k.caller = c :=
    fun k hk d hd => otherWriter_eq_false.1 (hr d hd) k hk
  refine exclusiveWriters_iff.2 fun k hk m hm d hkd hmd => ?_
  rcases List.mem_append.1 hk with hk | hk <;> rcases List.mem_append.1 hm with hm | hm
  · exact exclusiveWriters_iff.1 h k hk m hm d hkd hmd
  · obtain rfl := List.mem_singleton.1 hm
    exact (hnew k hk d hmd hkd).symm
  · obtain rfl := List.mem_singleton.1 hk
    exact hnew m hm d hkd hmd
  · rw [List.mem_singleton.1 hk, List.mem_singleton.1 hm]

/-! ## The oldest call of a caller -/

/-- The call taken was outstanding. -/
theorem mem_of_takeOldest {c : CallerId} {calls rest : List Call} {r : Request}
    (h : takeOldest c calls = some (r, rest)) : (⟨c, r⟩ : Call) ∈ calls := by
  obtain ⟨pre, post, rfl, -, -⟩ := takeOldest_eq_some h
  simp

/-- The calls that remain were outstanding. -/
theorem subset_of_takeOldest {c : CallerId} {calls rest : List Call} {r : Request}
    (h : takeOldest c calls = some (r, rest)) : rest ⊆ calls := by
  obtain ⟨pre, post, rfl, rfl, -⟩ := takeOldest_eq_some h
  exact List.append_subset.2 ⟨by simp, fun k hk => by simp [hk]⟩

/-- The oldest calls of two callers may be taken in either order: each stays its caller's oldest when the other is
taken, and the same calls remain. -/
theorem takeOldest_comm {a b : CallerId} {calls ka kb : List Call} {ra rb : Request} (hab : a ≠ b)
    (ha : takeOldest a calls = some (ra, ka)) (hb : takeOldest b calls = some (rb, kb)) :
    ∃ k, takeOldest b ka = some (rb, k) ∧ takeOldest a kb = some (ra, k) := by
  induction calls generalizing ka kb with
  | nil => cases ha
  | cons x calls ih =>
    by_cases hxa : x.caller = a
    · have hxb : x.caller ≠ b := hxa ▸ hab
      simp only [takeOldest, if_pos hxa, Option.some.injEq, Prod.mk.injEq] at ha
      simp only [takeOldest, if_neg hxb, Option.map_eq_some_iff, Prod.mk.injEq] at hb
      obtain ⟨rfl, rfl⟩ := ha
      obtain ⟨⟨r, k⟩, hk, rfl, rfl⟩ := hb
      exact ⟨k, hk, by simp [takeOldest, hxa]⟩
    · by_cases hxb : x.caller = b
      · simp only [takeOldest, if_neg hxa, Option.map_eq_some_iff, Prod.mk.injEq] at ha
        simp only [takeOldest, if_pos hxb, Option.some.injEq, Prod.mk.injEq] at hb
        obtain ⟨⟨r, k⟩, hk, rfl, rfl⟩ := ha
        obtain ⟨rfl, rfl⟩ := hb
        exact ⟨k, by simp [takeOldest, hxb], hk⟩
      · simp only [takeOldest, if_neg hxa, Option.map_eq_some_iff, Prod.mk.injEq] at ha
        simp only [takeOldest, if_neg hxb, Option.map_eq_some_iff, Prod.mk.injEq] at hb
        obtain ⟨⟨r, k⟩, hk, rfl, rfl⟩ := ha
        obtain ⟨⟨r', k'⟩, hk', rfl, rfl⟩ := hb
        obtain ⟨l, hl, hl'⟩ := ih hk hk'
        exact ⟨x :: l, by simp [takeOldest, hxb, hl], by simp [takeOldest, hxa, hl']⟩

/-! ## What a call that is performed leaves -/

/-- The slots after instruction `i`, performed as draw number `n`. -/
def slotsAfter (i : Instr) (n : Nat) (S : SlotStore) : SlotStore :=
  match i with
  | .dec _   => S
  | .enc v d => S.write d (encBits (encNan n) v)

/-- The count of draws after instruction `i`. -/
def drawsAfter (i : Instr) (n : Nat) : Nat := if nanOperand i then n + 1 else n

/-- What caller `c` gets back from instruction `i`, performed as draw number `n`. -/
def answerTo (c : CallerId) (i : Instr) (n : Nat) : Observation :=
  match i with
  | .dec bits => .response c (decBits (decNan n) bits)
  | .enc _ _  => .returned c

/-- The state after instruction `i` has been performed for caller `c`, with the calls `rest` left. -/
def State.performed (c : CallerId) (i : Instr) (rest : List Call) (s : State) : State :=
  { s with
    slots := slotsAfter i s.draws s.slots
    response := none
    calls := rest
    transcript := s.transcript ++ [answerTo c i s.draws]
    draws := drawsAfter i s.draws }

/-- The oldest request of `c` is performed by the instruction it decodes to, and its call returns. -/
theorem perform_of_exec {c : CallerId} {r : Request} {i : Instr} {rest : List Call} {s t : State}
    (htake : takeOldest c s.calls = some (r, rest)) (hdec : decode r = .ok i)
    (hexec : exec i { s with calls := rest } = .next t) : perform c s = .next (t.returnTo c) := by
  simp [perform, htake, performFor, hdec, hexec, returning]

/-- A request that decodes is performed, with the effect of its instruction and no other. -/
theorem perform_eq {c : CallerId} {r : Request} {i : Instr} {rest : List Call} {s : State}
    (htake : takeOldest c s.calls = some (r, rest)) (hdec : decode r = .ok i) :
    perform c s = .next (s.performed c i rest) := by
  cases i with
  | dec bits => exact perform_of_exec htake hdec rfl
  | enc v d => exact perform_of_exec htake hdec rfl

/-- What performing a call of caller `c` leaves. -/
theorem perform_next_performed {c : CallerId} {s t : State} (h : perform c s = .next t) :
    t = s ∨ ∃ r rest i, takeOldest c s.calls = some (r, rest) ∧ decode r = .ok i ∧ t = s.performed c i rest := by
  obtain ⟨-, rfl⟩ | ⟨r, rest, i, u, htake, hdec, -, -⟩ := perform_next h
  · exact .inl rfl
  · rw [perform_eq htake hdec] at h
    injection h with h
    exact .inr ⟨r, rest, i, htake, hdec, h.symm⟩

/-- What one step can do: an input acts, the oldest call of all is performed, or the run is over. -/
theorem step_next {s t : State} (h : step s = .next t) :
    (∃ i rest, s.inputs = i :: rest ∧ act i { s with inputs := rest } = .next t) ∨
    (∃ c, s.inputs = [] ∧ perform c s = .next t) ∨ t = s := by
  cases hi : s.inputs with
  | cons i rest => exact .inl ⟨i, rest, rfl, step_cons hi ▸ h⟩
  | nil =>
    cases hc : s.calls with
    | cons k rest => exact .inr (.inl ⟨k.caller, rfl, step_nil_cons hi hc ▸ h⟩)
    | nil =>
      rw [step_runOver ⟨hi, hc⟩] at h
      injection h with h
      exact .inr (.inr h.symm)

/-! ## The invariant -/

/-- An instruction keeps the canonical form of the slot store. -/
theorem slotsAfter_wf (i : Instr) (n : Nat) {S : SlotStore} (hS : S.wf = true) : (slotsAfter i n S).wf = true := by
  cases i with
  | dec bits => exact hS
  | enc v d => exact SlotStore.write_wf d _ hS

/-- The block performs no call that breaks the invariant. -/
theorem perform_keeps_inv {c : CallerId} {s t : State} (hs : s.Inv) (h : perform c s = .next t) : t.Inv := by
  obtain rfl | ⟨r, rest, i, htake, -, rfl⟩ := perform_next_performed h
  · exact hs
  · exact ⟨slotsAfter_wf i s.draws hs.slots_wf, rfl,
      exclusiveWriters_of_subset hs.writers_apart (subset_of_takeOldest htake)⟩

/-- The invariant does not speak of the inputs. -/
theorem State.Inv.with_inputs {s : State} (hs : s.Inv) (rest : List Input) : ({ s with inputs := rest } : State).Inv :=
  ⟨hs.slots_wf, hs.no_response, hs.writers_apart⟩

/-- No input breaks the invariant. -/
theorem act_keeps_inv {i : Input} {s t : State} (hs : s.Inv) (h : act i s = .next t) : t.Inv := by
  obtain ⟨hwf, hresp, hexcl⟩ := hs
  cases i with
  | call c r =>
    obtain ⟨rfl, hfree⟩ := handOver_next h
    exact ⟨hwf, hresp, exclusiveWriters_append hexcl hfree⟩
  | perform c => exact perform_keeps_inv ⟨hwf, hresp, hexcl⟩ h
  | read c d =>
    obtain ⟨x, -, rfl⟩ := callerRead_next h
    exact ⟨hwf, hresp, hexcl⟩
  | write d x =>
    obtain ⟨-, rfl⟩ := callerWrite_next h
    exact ⟨SlotStore.write_wf d x hwf, hresp, hexcl⟩
  | resetBlock =>
    cases h
    exact ⟨hwf, hresp, hexcl⟩
  | resetSystem =>
    cases h
    exact ⟨SlotStore.wf_nil, hresp, hexcl⟩

/-- Settles O49: consuming an input keeps the invariant, and neither the input's effect nor the block's own operation
breaks it. -/
theorem stepKeepsTheInvariant : Obligations.StepKeepsTheInvariant := by
  intro s t hs h
  obtain ⟨i, rest, -, hact⟩ | ⟨c, -, hperf⟩ | rfl := step_next h
  · exact act_keeps_inv (hs.with_inputs rest) hact
  · exact perform_keeps_inv hs hperf
  · exact hs

/-- Settles O48. -/
theorem resetMeetsTheInvariant : Obligations.ResetMeetsTheInvariant :=
  ⟨SlotStore.wf_nil, State.reset_response, exclusiveWriters_iff.2 fun _ hk => absurd hk List.not_mem_nil⟩

/-- Settles O47. -/
theorem resetLeavesEverySlotWithoutValue : Obligations.ResetLeavesEverySlotWithoutValue :=
  ⟨SlotStore.read_nil, State.reset_response, State.reset_calls, State.reset_inputs, State.reset_transcript⟩

/-! ## What changes a slot -/

/-- The destination of a request that decodes to an ENC. -/
theorem target_of_decode_enc {r : Request} {v : Pattern32} {d : SlotId} (h : decode r = .ok (.enc v d)) :
    r.target = some d := by
  simp [Request.target, h]

/-- An instruction changes no slot but its destination (41_encode.md R97). -/
theorem slotsAfter_read_other {r : Request} {i : Instr} {d : SlotId} (n : Nat) (S : SlotStore)
    (hdec : decode r = .ok i) (hne : r.target ≠ some d) : (slotsAfter i n S).read d = S.read d := by
  cases i with
  | dec bits => rfl
  | enc v d' =>
    have hd : d ≠ d' := fun h => hne (h ▸ target_of_decode_enc hdec)
    exact SlotStore.read_write_other S _ hd

/-- An instruction that changes a slot is an ENC to it, and the slot then holds its pattern. -/
theorem eq_enc_of_slotsAfter_read_ne {i : Instr} {n : Nat} {S : SlotStore} {d : SlotId}
    (h : (slotsAfter i n S).read d ≠ S.read d) :
    ∃ v, i = .enc v d ∧ (slotsAfter i n S).read d = some (encBits (encNan n) v) := by
  cases i with
  | dec bits => exact absurd rfl h
  | enc v d' =>
    obtain rfl : d = d' := by_contra fun hd => h (SlotStore.read_write_other S _ hd)
    exact ⟨v, rfl, SlotStore.read_write_self ..⟩

/-- A call that is performed and changes a slot is an outstanding ENC to it, of the caller served. -/
theorem perform_changes_slot {c : CallerId} {s t : State} {d : SlotId} (h : perform c s = .next t)
    (hne : t.slots.read d ≠ s.slots.read d) :
    ∃ k ∈ s.calls, k.caller = c ∧ ∃ v, decode k.request = .ok (.enc v d) ∧
      t.slots.read d = some (encBits (encNan s.draws) v) := by
  obtain rfl | ⟨r, rest, i, htake, hdec, rfl⟩ := perform_next_performed h
  · exact absurd rfl hne
  · obtain ⟨v, rfl, hread⟩ := eq_enc_of_slotsAfter_read_ne hne
    exact ⟨⟨c, r⟩, mem_of_takeOldest htake, rfl, v, hdec, hread⟩

/-- Settles O56: of the inputs only `perform`, `write` and `resetSystem` touch the slots. -/
theorem slotChangesOnlyByItsWriters : Obligations.SlotChangesOnlyByItsWriters := by
  intro s t d h hne
  obtain ⟨i, rest, hi, hact⟩ | ⟨c, hi, hperf⟩ | rfl := step_next h
  · cases i with
    | call c r =>
      obtain ⟨rfl, -⟩ := handOver_next hact
      exact absurd rfl hne
    | perform c =>
      obtain ⟨k, hk, rfl, v, hdec, hread⟩ := perform_changes_slot hact hne
      exact .inl ⟨k, hk, v, hdec, hread, .inr ⟨rest, hi⟩⟩
    | read c d' =>
      obtain ⟨x, -, rfl⟩ := callerRead_next hact
      exact absurd rfl hne
    | write d' x =>
      obtain ⟨-, rfl⟩ := callerWrite_next hact
      obtain rfl : d = d' := by_contra fun hd => hne (SlotStore.read_write_other s.slots x hd)
      exact .inr (.inl ⟨x, rest, hi, SlotStore.read_write_self ..⟩)
    | resetBlock =>
      cases hact
      exact absurd rfl hne
    | resetSystem =>
      cases hact
      exact .inr (.inr ⟨rest, hi, SlotStore.read_nil d⟩)
  · obtain ⟨k, hk, -, v, hdec, hread⟩ := perform_changes_slot hperf hne
    exact .inl ⟨k, hk, v, hdec, hread, .inl hi⟩
  · exact absurd rfl hne

/-! ## Single steps -/

/-- Settles O50: the first call of `c` is the one taken, with the input `perform c` or as the oldest of all. -/
theorem stepRunsTheDecodedInstruction : Obligations.StepRunsTheDecodedInstruction := by
  intro s c r i pre post hcalls hpre hdec
  have htake : takeOldest c s.calls = some (r, pre ++ post) := hcalls ▸ takeOldest_append hpre
  refine ⟨fun rest t hi hexec => ?_, fun t hi hnil hexec => ?_, fun t => ⟨fun v hv => ?_, fun hnone => ?_⟩⟩
  · rw [step_cons hi]
    exact perform_of_exec (s := { s with inputs := rest }) htake hdec hexec
  · subst hnil
    rw [step_nil_cons hi hcalls]
    exact perform_of_exec htake hdec hexec
  · simp [State.returnTo, hv]
  · simp [State.returnTo, hnone]

/-- Settles O52: the step is the caller's read. -/
theorem readOfUnwrittenSlotFaults : Obligations.ReadOfUnwrittenSlotFaults := by
  intro s c d rest hi
  rw [step_cons hi]
  exact ⟨fun hnone => by simp [act, callerRead, hnone], fun x hx => by simp [act, callerRead, hx]⟩

/-! ## Two callers -/

/-- Writes to two slots commute. -/
theorem SlotStore.write_comm {S : SlotStore} {d d' : SlotId} (h h' : Pattern16) (hS : S.wf = true) (hne : d ≠ d') :
    (S.write d h).write d' h' = (S.write d' h').write d h := by
  refine SlotStore.eq_of_read (SlotStore.write_wf _ _ (SlotStore.write_wf _ _ hS))
    (SlotStore.write_wf _ _ (SlotStore.write_wf _ _ hS)) fun e => ?_
  by_cases he : e = d
  · subst he
    rw [SlotStore.read_write_other _ _ hne, SlotStore.read_write_self, SlotStore.read_write_self]
  · rw [SlotStore.read_write_other (S.write d' h') _ he]
    by_cases he' : e = d'
    · subst he'
      rw [SlotStore.read_write_self, SlotStore.read_write_self]
    · rw [SlotStore.read_write_other _ _ he', SlotStore.read_write_other _ _ he, SlotStore.read_write_other _ _ he']

/-- The slots of two instructions with no common destination do not depend on their order. -/
theorem slotsAfter_comm {ra rb : Request} {ia ib : Instr} {S : SlotStore} (m n : Nat) (hS : S.wf = true)
    (hda : decode ra = .ok ia) (hdb : decode rb = .ok ib) (hne : ∀ d, ra.target = some d → rb.target ≠ some d) :
    slotsAfter ib n (slotsAfter ia m S) = slotsAfter ia m (slotsAfter ib n S) := by
  cases ia with
  | dec bits => rfl
  | enc v d =>
    cases ib with
    | dec bits => rfl
    | enc v' d' =>
      have hdd : d ≠ d' := fun h => hne d (target_of_decode_enc hda) (h ▸ target_of_decode_enc hdb)
      exact SlotStore.write_comm _ _ hS hdd

/-- The count of draws does not depend on the order. -/
theorem drawsAfter_comm (i j : Instr) (n : Nat) : drawsAfter j (drawsAfter i n) = drawsAfter i (drawsAfter j n) := by
  unfold drawsAfter
  split <;> split <;> rfl

/-- An instruction on no NaN leaves the same slots whatever its draw number. -/
theorem slotsAfter_of_not_nan {i : Instr} (h : nanOperand i = false) (m n : Nat) : slotsAfter i m = slotsAfter i n := by
  cases i with
  | dec bits => rfl
  | enc v d =>
    have hv : ¬ isNaN32 v := of_decide_eq_false h
    unfold slotsAfter
    simp only [encBits_of_not_nan (encNan m) (encNan n) hv]

/-- An instruction on no NaN gives the same answer whatever its draw number. -/
theorem answerTo_of_not_nan {i : Instr} (h : nanOperand i = false) (c : CallerId) (m n : Nat) :
    answerTo c i m = answerTo c i n := by
  cases i with
  | dec bits =>
    have hb : ¬ isNaN16 bits := of_decide_eq_false h
    simp only [answerTo, decBits_of_not_nan (decNan m) (decNan n) hb]
  | enc v d => rfl

/-- What depends on the draw number of `i` only where `i` is on a NaN does not see `j` performed before, unless both
are on a NaN. -/
theorem eq_at_drawsAfter {α : Type} {i j : Instr} (f : Nat → α) (hf : nanOperand i = false → ∀ m n, f m = f n)
    (h : (nanOperand i && nanOperand j) = false) (n : Nat) : f (drawsAfter j n) = f n := by
  rcases Bool.and_eq_false_iff.1 h with hi | hj
  · exact hf hi _ _
  · simp [drawsAfter, hj]

@[simp] theorem answerTo_caller (c : CallerId) (i : Instr) (n : Nat) : (answerTo c i n).caller = c := by
  cases i with
  | dec bits => rfl
  | enc v d => rfl

/-- A caller does not see the order of two observations of which at most one is its own. -/
theorem filter_caller_comm (T : List Observation) {x y : Observation} (hne : x.caller ≠ y.caller) (c : CallerId) :
    (T ++ [x] ++ [y]).filter (fun o => decide (o.caller = c)) =
      (T ++ [y] ++ [x]).filter (fun o => decide (o.caller = c)) := by
  by_cases hx : x.caller = c
  · have hy : y.caller ≠ c := fun h => hne (hx.trans h.symm)
    simp [hx, hy]
  · simp [List.filter_append, List.filter_cons, hx]

/-- Two instructions leave every slot as it was that neither names. -/
theorem performed_performed_read_other {s : State} {a b : CallerId} {ra rb : Request} {ia ib : Instr} {ka k : List Call}
    {d : SlotId} (hda : decode ra = .ok ia) (hdb : decode rb = .ok ib) (hna : ra.target ≠ some d)
    (hnb : rb.target ≠ some d) :
    ((s.performed a ia ka).performed b ib k).slots.read d = s.slots.read d :=
  (slotsAfter_read_other _ _ hdb hnb).trans (slotsAfter_read_other _ _ hda hna)

/-- The instructions of two callers, in either order, leave the same slots: the exclusive-writer contract keeps their
destinations apart. -/
theorem performed_slots_comm {s : State} {a b : CallerId} {ra rb : Request} {ia ib : Instr} {ka kb k k' : List Call}
    (hs : s.Inv) (hab : a ≠ b) (hta : takeOldest a s.calls = some (ra, ka)) (htb : takeOldest b s.calls = some (rb, kb))
    (hda : decode ra = .ok ia) (hdb : decode rb = .ok ib) (hnan : (nanOperand ia && nanOperand ib) = false) :
    ((s.performed a ia ka).performed b ib k).slots = ((s.performed b ib kb).performed a ia k').slots := by
  have hnan' : (nanOperand ib && nanOperand ia) = false := by rwa [Bool.and_comm]
  have hapart : ∀ d, ra.target = some d → rb.target ≠ some d := fun d hd hd' =>
    hab (exclusiveWriters_iff.1 hs.writers_apart _ (mem_of_takeOldest htb) _ (mem_of_takeOldest hta) d hd' hd)
  calc slotsAfter ib (drawsAfter ia s.draws) (slotsAfter ia s.draws s.slots)
      = slotsAfter ib s.draws (slotsAfter ia s.draws s.slots) := by
        rw [eq_at_drawsAfter (slotsAfter ib) slotsAfter_of_not_nan hnan']
    _ = slotsAfter ia s.draws (slotsAfter ib s.draws s.slots) :=
        slotsAfter_comm _ _ hs.slots_wf hda hdb hapart
    _ = slotsAfter ia (drawsAfter ib s.draws) (slotsAfter ib s.draws s.slots) := by
        rw [eq_at_drawsAfter (slotsAfter ia) slotsAfter_of_not_nan hnan]

/-- The instructions of two callers, in either order, give every caller the same answers. -/
theorem performed_seenBy_comm {a b : CallerId} {ia ib : Instr} (s : State) (ka kb k k' : List Call) (hab : a ≠ b)
    (hnan : (nanOperand ia && nanOperand ib) = false) (c : CallerId) :
    ((s.performed a ia ka).performed b ib k).seenBy c = ((s.performed b ib kb).performed a ia k').seenBy c := by
  have hnan' : (nanOperand ib && nanOperand ia) = false := by rwa [Bool.and_comm]
  have hb := eq_at_drawsAfter (answerTo b ib) (answerTo_of_not_nan · b) hnan' s.draws
  have ha := eq_at_drawsAfter (answerTo a ia) (answerTo_of_not_nan · a) hnan s.draws
  simp only [State.seenBy, State.performed, ha, hb]
  exact filter_caller_comm _ (by simpa using hab) c

/-- Two steps of a run. -/
theorem run_two {s t u : State} (hst : step s = .next t) (htu : step t = .next u) :
    Sys2Proof.core.run 2 s = .next u := by
  simp [Host.Core.run, Sys2Proof.core, hst, htu]

/-- The oldest calls of two callers, performed one after the other, both complete. -/
theorem run_two_performs {s : State} {a b : CallerId} {ra rb : Request} {ia ib : Instr} {ka k : List Call}
    (rest : List Input) (hta : takeOldest a s.calls = some (ra, ka)) (htb : takeOldest b ka = some (rb, k))
    (hda : decode ra = .ok ia) (hdb : decode rb = .ok ib) :
    Sys2Proof.core.run 2 { s with inputs := .perform a :: .perform b :: rest } =
      .next ((({ s with inputs := rest } : State).performed a ia ka).performed b ib k) := by
  refine run_two (t := ({ s with inputs := .perform b :: rest } : State).performed a ia ka) ?_ ?_
  · rw [step_cons rfl]
    exact perform_eq hta hda
  · rw [step_cons rfl]
    exact perform_eq htb hdb

/-- Settles O58: both orders take the same calls; an instruction changes its destination only, and these are two
slots by the invariant; and a draw made before is seen by an instruction on a NaN only. -/
theorem callsOfTwoCallersCommute : Obligations.CallsOfTwoCallersCommute := by
  intro s a b ra rb ia ib ka kb rest hs hab hta htb hda hdb
  obtain ⟨k, hkb, hka⟩ := takeOldest_comm hab hta htb
  refine ⟨_, _, run_two_performs rest hta hkb hda hdb, run_two_performs rest htb hka hdb hda,
    rfl, rfl, rfl, rfl, rfl, drawsAfter_comm ia ib s.draws, fun d hna hnb => ?_, fun hnan => ⟨?_, fun c => ?_⟩⟩
  · exact ⟨performed_performed_read_other hda hdb hna hnb, performed_performed_read_other hdb hda hnb hna⟩
  · exact performed_slots_comm (hs.with_inputs rest) hab hta htb hda hdb hnan
  · exact performed_seenBy_comm _ ka kb k k hab hnan c

end Sys2Proof.Machine
end

section
/-! PROOFS. The statements of 20_memory.md: the one write of ENC in the slot store and in byte memory, the exclusive-writer
contract on what callers do, and readers around an ENC. -/

namespace Sys2Proof.Machine

/-! ## The write of ENC -/

/-- ENC as the named updates of the state (41_encode.md R85). -/
theorem exec_enc (v : Pattern32) (d : SlotId) (s : State) :
    exec (.enc v d) s = .next ((s.noResponse.slotWrite d (encBits (encNan s.draws) v)).drawIf (isNaN32 v)) := rfl

/-- Of two writes to one slot the last counts (20_memory.md R37). -/
@[simp] theorem SlotStore.write_write_self (S : SlotStore) (d : SlotId) (g h : Pattern16) :
    (S.write d g).write d h = S.write d h := by
  induction S with
  | nil => simp [SlotStore.write]
  | cons e S ih =>
    obtain ⟨k, x⟩ := e
    rcases Nat.lt_trichotomy d k with hlt | rfl | hgt
    · simp [SlotStore.write, hlt]
    · simp [SlotStore.write]
    · simp [SlotStore.write, Nat.lt_asymm hgt, Nat.ne_of_gt hgt, ih]

/-- Settles O23. -/
theorem encChangesItsDestinationOnly : Obligations.EncChangesItsDestinationOnly := fun v d s =>
  ⟨_, exec_enc v d s, SlotStore.read_write_self .., fun _ hne => SlotStore.read_write_other s.slots _ hne,
    rfl, rfl, rfl, rfl⟩

/-- Settles O39: off NaN the second ENC writes the pattern of the first, whatever its draw number, and of two writes to one
slot the last counts. -/
theorem encTwiceIsEncOnce : Obligations.EncTwiceIsEncOnce := by
  intro v d s hv
  refine ⟨_, _, exec_enc v d s, exec_enc v d _, ?_⟩
  simp [encBits_of_not_nan _ (encNan s.draws) hv]

/-! ## Slots in byte memory -/

/-- The lower address of slot `d` (20_memory.md R38). -/
theorem SlotStore.byte_lower {S : SlotStore} {d : SlotId} {h : Pattern16} (e : Endian) (hd : S.read d = some h) :
    S.byte e (2 * d) = some (byteOfSlot e h 0) := by
  simp [SlotStore.byte, hd]

/-- The higher address of slot `d` (20_memory.md R38). -/
theorem SlotStore.byte_higher {S : SlotStore} {d : SlotId} {h : Pattern16} (e : Endian) (hd : S.read d = some h) :
    S.byte e (2 * d + 1) = some (byteOfSlot e h 1) := by
  simp [SlotStore.byte, Nat.mul_add_div, hd]

/-- A write changes no byte outside the two of its slot (20_memory.md R38, R39). -/
theorem SlotStore.byte_write_other (e : Endian) (S : SlotStore) {d : SlotId} {a : Nat} (h : Pattern16)
    (hlower : a ≠ 2 * d) (hhigher : a ≠ 2 * d + 1) : (S.write d h).byte e a = S.byte e a := by
  have hslot : a / 2 ≠ d := by omega
  simp only [SlotStore.byte, SlotStore.read_write_other S h hslot]

/-- Settles O24: the destination reads as the pattern, and its two addresses are those that halve to it. -/
theorem encInByteMemory : Obligations.EncInByteMemory := by
  intro v d s
  have hread := SlotStore.read_write_self s.slots d (encBits (encNan s.draws) v)
  exact ⟨_, _, rfl, exec_enc v d s, hread,
    SlotStore.byte_lower .little hread, SlotStore.byte_higher .little hread,
    SlotStore.byte_lower .big hread, SlotStore.byte_higher .big hread,
    fun _ hlower hhigher => SlotStore.byte_write_other _ s.slots _ hlower hhigher⟩

/-! ## Overlapping writers -/

/-- A caller but `c` has an ENC to slot `d` outstanding. -/
theorem otherWriter_eq_true {c : CallerId} {d : SlotId} {calls : List Call} :
    otherWriter c d calls = true ↔ ∃ k ∈ calls, k.caller ≠ c ∧ k.request.target = some d := by
  simp [otherWriter]

/-- Some caller has an ENC to slot `d` outstanding. -/
theorem anyWriter_eq_true {d : SlotId} {calls : List Call} :
    anyWriter d calls = true ↔ ∃ k ∈ calls, k.request.target = some d := by
  simp [anyWriter]

/-- No caller has an ENC to slot `d` outstanding. -/
theorem anyWriter_eq_false {d : SlotId} {calls : List Call} :
    anyWriter d calls = false ↔ ∀ k ∈ calls, k.request.target ≠ some d := by
  simp [anyWriter]

/-- An ENC to a slot that another caller's outstanding ENC writes is not admitted (20_memory.md R46). -/
theorem handOver_refused {c : CallerId} {r : Request} {s : State} {d : SlotId} (hr : r.target = some d)
    (hw : otherWriter c d s.calls = true) : handOver c r s = .refused (.overlappingWriters d) := by
  simp [handOver, hr, hw]

/-- Any other request is queued behind the outstanding calls (10_state.md R21). -/
theorem handOver_of_no_otherWriter {c : CallerId} {r : Request} {s : State}
    (hfree : ∀ d, r.target = some d → otherWriter c d s.calls = false) :
    handOver c r s = .next { s with calls := s.calls ++ [⟨c, r⟩] } := by
  cases hr : r.target with
  | none => simp [handOver, hr]
  | some d => simp [handOver, hr, hfree d hr]

/-- A write during an ENC to its slot is not admitted (20_memory.md R46). -/
theorem callerWrite_refused {d : SlotId} {h : Pattern16} {s : State} (hw : anyWriter d s.calls = true) :
    callerWrite d h s = .refused (.overlappingWriters d) := by
  simp [callerWrite, hw]

/-- Any other write changes its slot (10_state.md R27). -/
theorem callerWrite_of_no_writer {d : SlotId} {h : Pattern16} {s : State} (hfree : anyWriter d s.calls = false) :
    callerWrite d h s = .next (s.slotWrite d h) := by
  simp [callerWrite, hfree]

/-- Settles O51: the step is the caller's own act, which looks for an outstanding ENC to its slot. -/
theorem overlappingWritersAreRefused : Obligations.OverlappingWritersAreRefused := by
  refine ⟨fun s c r rest hi => ?_, fun s d h rest hi => ?_⟩ <;> rw [step_cons hi]
  · exact ⟨fun d hr hw => handOver_refused hr (otherWriter_eq_true.2 hw),
      fun hfree => handOver_of_no_otherWriter fun d hr => otherWriter_eq_false.2 (hfree d hr)⟩
  · exact ⟨fun hw => callerWrite_refused (anyWriter_eq_true.2 hw),
      fun hfree => callerWrite_of_no_writer (anyWriter_eq_false.2 hfree)⟩

/-! ## Readers around an ENC -/

/-- The step that consumes `perform c` performs the oldest request of `c`. -/
theorem step_perform {s : State} {c : CallerId} {r : Request} {i : Instr} {k : List Call} {rest : List Input}
    (hi : s.inputs = .perform c :: rest) (htake : takeOldest c s.calls = some (r, k)) (hdec : decode r = .ok i) :
    step s = .next (({ s with inputs := rest } : State).performed c i k) := by
  rw [step_cons hi]
  exact perform_eq htake hdec

/-- The step that consumes a read of a slot that holds a value shows that value. -/
theorem step_read {s : State} {a : CallerId} {d : SlotId} {x : Pattern16} {rest : List Input}
    (hi : s.inputs = .read a d :: rest) (hx : s.slots.read d = some x) :
    step s = .next { s with inputs := rest, transcript := s.transcript ++ [.sawSlot a d x] } := by
  obtain ⟨-, hvalue⟩ := readOfUnwrittenSlotFaults s a d rest hi
  exact hvalue x hx

/-- Settles O59: the read and the ENC are two whole steps, so the read falls before the write or after it. -/
theorem readersSeeTheOldOrTheNewPattern : Obligations.ReadersSeeTheOldOrTheNewPattern := by
  intro s c a v d r k rest htake hdec
  refine ⟨fun hi => ?_, fun old hi hold => ?_⟩
  · have hnew := SlotStore.read_write_self s.slots d (encBits (encNan s.draws) v)
    exact ⟨_, run_two (step_perform hi htake hdec) (step_read rfl hnew), List.append_assoc ..⟩
  · exact ⟨_, run_two (step_read hi hold) (step_perform rfl htake hdec), List.append_assoc ..,
      SlotStore.read_write_self ..⟩

end Sys2Proof.Machine
end

section
/-! PROOFS. The statements of 30_encoding.md: the operation word, the opcode map, the decoder and the encoder, the refusals of
a step, the assembly text, and the fields and classes of the data formats. -/

namespace Sys2Proof.Machine

/-! ## Patterns and their fields -/

/-- A pattern is its three fields in order. -/
theorem append_fields {a b c : Nat} (x : BitVec (a + b + c)) :
    x.extractLsb' (b + c) a ++ x.extractLsb' c b ++ x.extractLsb' 0 c = x := by
  rw [BitVec.extractLsb'_append_extractLsb'_eq_extractLsb' (Nat.add_comm b c),
    BitVec.extractLsb'_append_extractLsb'_eq_extractLsb' (Nat.zero_add c).symm, BitVec.extractLsb'_eq_self]

/-- Equal concatenations of fields of the same widths have equal fields. -/
theorem append_eq_append_iff {a b : Nat} {x x' : BitVec a} {y y' : BitVec b} :
    x ++ y = x' ++ y' ↔ x = x' ∧ y = y' := by
  refine ⟨fun h => ?_, fun ⟨hx, hy⟩ => by rw [hx, hy]⟩
  have hx : x = x' := by rw [← extract_append_high x y, h, extract_append_high]
  exact ⟨hx, (BitVec.append_right_inj x).1 (hx ▸ h)⟩

/-- Settles O7. -/
theorem patternIsItsFields : Obligations.PatternIsItsFields :=
  ⟨fun h => (append_fields (a := 1) (b := 5) (c := 10) h).symm,
    fun f => (append_fields (a := 1) (b := 8) (c := 23) f).symm⟩

/-! ## The operation word and the opcode map -/

/-- The field `op = W[32]` is one bit (30_encoding.md R67). -/
theorem extract_op (w : OpWord) : w.extractLsb' 32 1 = BitVec.ofBool (w.getLsbD 32) := by
  rw [BitVec.getLsbD_eq_extractLsb']
  generalize w.extractLsb' 32 1 = op
  revert op
  decide

/-- A word is its format F fields in order (30_encoding.md R69). -/
theorem op_append_value (w : OpWord) : BitVec.ofBool (w.getLsbD 32) ++ OpWord.value w = w := by
  rw [← extract_op, OpWord.value, BitVec.extractLsb'_append_extractLsb'_eq_extractLsb' (Nat.zero_add 32).symm,
    BitVec.extractLsb'_eq_self]

/-- A word is its format H fields in order (30_encoding.md R68). -/
theorem op_append_reserved_append_bits (w : OpWord) :
    BitVec.ofBool (w.getLsbD 32) ++ w.extractLsb' 16 16 ++ OpWord.bits w = w := by
  rw [← extract_op]
  exact append_fields (a := 1) (b := 16) (c := 16) w

/-- The row of ENC tests `W[32]` alone (30_encoding.md R71). -/
theorem encRow_selects_iff (w : OpWord) : encRow.selects w = true ↔ w.getLsbD 32 = true := by
  have hand : w &&& encRow.mask = if w.getLsbD 32 then encRow.pattern else 0#33 := BitVec.and_twoPow w 32
  rw [OpcodeRow.selects, hand]
  cases w.getLsbD 32 <;> decide

/-- The row of DEC tests `W[32]` and the reserved field (30_encoding.md R71). -/
theorem decRow_selects_iff (w : OpWord) :
    decRow.selects w = true ↔ w.getLsbD 32 = false ∧ w.extractLsb' 16 16 = 0#16 := by
  have hmask : decRow.mask = BitVec.allOnes 1 ++ BitVec.allOnes 16 ++ 0#16 := rfl
  have hpattern : decRow.pattern = 0#1 ++ 0#16 ++ 0#16 := rfl
  have hand : w &&& decRow.mask = BitVec.ofBool (w.getLsbD 32) ++ w.extractLsb' 16 16 ++ 0#16 := by
    conv_lhs => rw [← op_append_reserved_append_bits w, hmask, BitVec.and_append, BitVec.and_append]
    rw [BitVec.and_allOnes, BitVec.and_allOnes, BitVec.and_zero]
  rw [OpcodeRow.selects, beq_iff_eq, hand, hpattern, append_eq_append_iff, append_eq_append_iff]
  cases w.getLsbD 32 <;> simp

/-- A word with `W[32]` clear does not select the row of ENC. -/
theorem encRow_selects_eq_false {w : OpWord} (hop : w.getLsbD 32 = false) : encRow.selects w = false := by
  rw [Bool.eq_false_iff, Ne, encRow_selects_iff, hop]
  decide

/-- A word with a reserved field that is not zero does not select the row of DEC. -/
theorem decRow_selects_eq_false {w : OpWord} (hres : w.extractLsb' 16 16 ≠ 0#16) : decRow.selects w = false := by
  rw [Bool.eq_false_iff, Ne, decRow_selects_iff]
  exact fun h => hres h.2

/-! ## The decoder -/

/-- With `W[32]` set the destination decides (30_encoding.md R69). -/
theorem decode_formatF {w : OpWord} (hop : w.getLsbD 32 = true) :
    (∀ d, decode ⟨w, some d⟩ = .ok (.enc (OpWord.value w) d)) ∧
      decode ⟨w, none⟩ = .error (.missingDestination w) := by
  simp [decode, encRow_selects_iff, hop]

/-- With `W[32]` and the reserved field clear the destination decides (30_encoding.md R68). -/
theorem decode_formatH {w : OpWord} (hop : w.getLsbD 32 = false) (hres : w.extractLsb' 16 16 = 0#16) :
    decode ⟨w, none⟩ = .ok (.dec (OpWord.bits w)) ∧
      ∀ d, decode ⟨w, some d⟩ = .error (.strayDestination w) := by
  have henc := encRow_selects_eq_false hop
  have hdec : decRow.selects w = true := (decRow_selects_iff w).2 ⟨hop, hres⟩
  simp [decode, henc, hdec]

/-- Any other word is reserved, whatever accompanies it (30_encoding.md R72). -/
theorem decode_reserved {w : OpWord} (hop : w.getLsbD 32 = false) (hres : w.extractLsb' 16 16 ≠ 0#16)
    (dst : Option SlotId) : decode ⟨w, dst⟩ = .error (.reservedWord w) := by
  simp [decode, encRow_selects_eq_false hop, decRow_selects_eq_false hres]

/-- What the decoder accepts: format H without a destination, format F with one. -/
theorem decode_eq_ok_iff {r : Request} {i : Instr} :
    decode r = .ok i ↔
      (r.word.getLsbD 32 = false ∧ r.word.extractLsb' 16 16 = 0#16 ∧ r.dst = none ∧ i = .dec (OpWord.bits r.word)) ∨
      (r.word.getLsbD 32 = true ∧ ∃ d, r.dst = some d ∧ i = .enc (OpWord.value r.word) d) := by
  obtain ⟨w, dst⟩ := r
  cases hop : w.getLsbD 32 with
  | true => cases dst <;> simp [decode_formatF hop, eq_comm]
  | false =>
    by_cases hres : w.extractLsb' 16 16 = 0#16
    · cases dst <;> simp [decode_formatH hop hres, hres, eq_comm]
    · simp [decode_reserved hop hres, hres]

/-! ## Encoder and decoder -/

/-- Settles O2: each format's fields are cut out of the word at the places where `encode` puts them. -/
theorem decodeOfEncodeIsTheInstruction : Obligations.DecodeOfEncodeIsTheInstruction := by
  intro i
  rw [decode_eq_ok_iff]
  cases i with
  | dec bits =>
    obtain ⟨hfields, hbits⟩ := append_eq_append_iff.1 (op_append_reserved_append_bits (0#1 ++ 0#16 ++ bits))
    obtain ⟨hop, hres⟩ := append_eq_append_iff.1 hfields
    exact .inl ⟨BitVec.ofBool_eq_iff_eq.1 hop, hres, rfl, congrArg Instr.dec hbits.symm⟩
  | enc value dst =>
    obtain ⟨hop, hvalue⟩ := append_eq_append_iff.1 (op_append_value (1#1 ++ value))
    exact .inr ⟨BitVec.ofBool_eq_iff_eq.1 hop, dst, rfl, congrArg (Instr.enc · dst) hvalue.symm⟩

/-- Settles O3: an accepted word is its own fields in the order in which `encode` writes them. -/
theorem acceptedRequestIsTheEncoding : Obligations.AcceptedRequestIsTheEncoding := by
  rintro ⟨w, dst⟩ i hdec
  rcases decode_eq_ok_iff.1 hdec with ⟨hop, hres, hdst, rfl⟩ | ⟨hop, d, hdst, rfl⟩
  · have hw := op_append_reserved_append_bits w
    rw [hop, hres] at hw
    exact congrArg₂ Request.mk hw hdst.symm
  · have hw := op_append_value w
    rw [hop] at hw
    exact congrArg₂ Request.mk hw hdst.symm

/-- Settles O4: `Request.wf` asks for the shapes that `decode_eq_ok_iff` lists. -/
theorem decoderAcceptsExactlyTheWellFormed : Obligations.DecoderAcceptsExactlyTheWellFormed := by
  rintro ⟨w, dst⟩
  simp only [decode_eq_ok_iff, Request.wf]
  cases w.getLsbD 32 <;> cases dst <;> simp

/-- Settles O5: the two rows ask for different values of `W[32]`, and the decoder reads the fields of the row selected. -/
theorem opcodeMapSelectsTheInstruction : Obligations.OpcodeMapSelectsTheInstruction := by
  intro w
  have hdec : w &&& 0x1FFFF0000#33 = 0x000000000#33 ↔ w.getLsbD 32 = false ∧ w.extractLsb' 16 16 = 0#16 :=
    beq_iff_eq.symm.trans (decRow_selects_iff w)
  have henc : w &&& 0x100000000#33 = 0x100000000#33 ↔ w.getLsbD 32 = true :=
    beq_iff_eq.symm.trans (encRow_selects_iff w)
  rw [hdec, henc]
  refine ⟨fun ⟨⟨hclear, _⟩, hset⟩ => ?_, fun ⟨hop, hres⟩ => ?_, fun hop => ?_⟩
  · rw [hclear] at hset
    cases hset
  · exact (decode_formatH hop hres).1
  · exact (decode_formatF hop).1

/-- Settles O1: the vectors are nine closed words. -/
theorem operationWordVectorsDecode : Obligations.OperationWordVectorsDecode := by
  unfold Obligations.OperationWordVectorsDecode
  decide

/-! ## Refusals of a step -/

/-- A rejected request has the shape of neither format. -/
theorem wf_eq_false_of_decode_error {r : Request} {e : DecodeError} (h : decode r = .error e) : r.wf = false := by
  rw [Bool.eq_false_iff, Ne, ← decoderAcceptsExactlyTheWellFormed r, h]
  exact nofun

/-- Performing the calls of a caller whose oldest request is rejected is refused by the name of the error. -/
theorem perform_refused_of_error {s : State} {c : CallerId} {r : Request} {e : DecodeError} {pre post : List Call}
    (hcalls : s.calls = pre ++ ⟨c, r⟩ :: post) (hpre : ∀ k ∈ pre, k.caller ≠ c) (hdec : decode r = .error e) :
    perform c s = .refused (.badRequest e) := by
  rw [perform, hcalls, takeOldest_append hpre]
  exact performFor_of_error hdec

/-- Settles O6: a reserved word fails the tests of both rows, and a step that performs a call takes the oldest of its
caller. -/
theorem reservedWordIsRefused : Obligations.ReservedWordIsRefused := by
  refine ⟨fun w dst hop hres => ⟨decRow_selects_eq_false hres, encRow_selects_eq_false hop, decode_reserved hop hres dst⟩,
    fun w hop => (decode_formatF hop).2, fun w d hop hres => (decode_formatH hop hres).2 d,
    fun s c r e pre post hcalls hpre hdec => ⟨fun rest hi => ?_, fun hi hnil => ?_⟩⟩
  · rw [step_cons hi]
    exact perform_refused_of_error hcalls hpre hdec
  · subst hnil
    rw [step_nil_cons hi hcalls]
    exact perform_refused_of_error hcalls hpre hdec

/-- The oldest call of all is its caller's oldest. -/
theorem takeOldest_head (k : Call) (rest : List Call) : takeOldest k.caller (k :: rest) = some (k.request, rest) :=
  takeOldest_append (pre := []) nofun

/-- A handing over is refused only where another caller has an ENC to the same slot outstanding. -/
theorem handOver_refused_cause {c : CallerId} {r : Request} {s : State} {q : Refusal}
    (h : handOver c r s = .refused q) :
    ∃ d, q = .overlappingWriters d ∧ r.target = some d ∧ otherWriter c d s.calls = true := by
  by_cases hfree : ∀ d, r.target = some d → otherWriter c d s.calls = false
  · rw [handOver_of_no_otherWriter hfree] at h
    cases h
  · simp only [not_forall, Bool.not_eq_false] at hfree
    obtain ⟨d, hr, hw⟩ := hfree
    rw [handOver_refused hr hw] at h
    injection h with h
    exact ⟨d, h.symm, hr, hw⟩

/-- A write is refused only where an ENC to the same slot is outstanding. -/
theorem callerWrite_refused_cause {d : SlotId} {x : Pattern16} {s : State} {q : Refusal}
    (h : callerWrite d x s = .refused q) : q = .overlappingWriters d ∧ anyWriter d s.calls = true := by
  cases hw : anyWriter d s.calls with
  | true =>
    rw [callerWrite_refused hw] at h
    injection h with h
    exact ⟨h.symm, rfl⟩
  | false =>
    rw [callerWrite_of_no_writer hw] at h
    cases h

/-- A read is never refused: it sees a value or faults (10_state.md R34). -/
theorem callerRead_not_refused (c : CallerId) (d : SlotId) (s : State) (q : Refusal) :
    callerRead c d s ≠ .refused q := by
  unfold callerRead
  split <;> exact nofun

/-- Settles O55: a perform is refused by the decoder alone, a handing over and a write by an outstanding ENC to their slot,
and nothing else is refused. -/
theorem refusalsHaveTheirCauses : Obligations.RefusalsHaveTheirCauses := by
  intro s q h
  cases hi : s.inputs with
  | nil =>
    cases hc : s.calls with
    | nil =>
      rw [step_runOver ⟨hi, hc⟩] at h
      cases h
    | cons k rest =>
      rw [step_nil_cons hi hc] at h
      obtain ⟨r, remaining, e, htake, hdec, rfl⟩ := perform_refused h
      rw [hc, takeOldest_head] at htake
      obtain ⟨rfl, rfl⟩ := Prod.mk.inj (Option.some.inj htake)
      exact .inl ⟨k, [], rest, e, rfl, nofun, .inl ⟨rfl, rfl⟩, hdec, wf_eq_false_of_decode_error hdec, rfl⟩
  | cons i rest =>
    rw [step_cons hi] at h
    cases i with
    | perform c =>
      obtain ⟨r, remaining, e, htake, hdec, rfl⟩ := perform_refused h
      obtain ⟨pre, post, hcalls, -, hpre⟩ := takeOldest_eq_some htake
      exact .inl ⟨⟨c, r⟩, pre, post, e, hcalls, hpre, .inr ⟨rest, rfl⟩, hdec, wf_eq_false_of_decode_error hdec, rfl⟩
    | call c r =>
      obtain ⟨d, rfl, hr, hw⟩ := handOver_refused_cause h
      exact .inr ⟨d, rfl, .inl ⟨c, r, rest, rfl, hr, otherWriter_eq_true.1 hw⟩⟩
    | write d x =>
      obtain ⟨rfl, hw⟩ := callerWrite_refused_cause h
      exact .inr ⟨d, rfl, .inr ⟨x, rest, rfl, anyWriter_eq_true.1 hw⟩⟩
    | read c d => exact absurd h (callerRead_not_refused c d _ q)
    | resetBlock => cases h
    | resetSystem => cases h

/-! ## Assembly text -/

/-- A digit printed is read as the number it stands for (30_encoding.md R74). -/
theorem hexValue_hexDigit {n : Nat} (h : n < 16) : hexValue (hexDigit n) = some n :=
  (by decide : ∀ d : Fin 16, hexValue (hexDigit d) = some d.val) ⟨n, h⟩

@[simp] theorem hexDigits_length (k n : Nat) : (hexDigits k n).length = k := by
  induction k generalizing n with
  | zero => rfl
  | succ k ih => simp [hexDigits, ih]

/-- The last `k` digits of a number, read on from `acc`, put the number modulo `16 ^ k` behind `acc`. -/
theorem hexNumber_hexDigits_append (acc k n : Nat) (cs : List Char) :
    hexNumber acc (hexDigits k n ++ cs) = hexNumber (acc * 16 ^ k + n % 16 ^ k) cs := by
  induction k generalizing n cs with
  | zero => simp [hexDigits, Nat.mod_one]
  | succ k ih =>
    have hdigits : (acc * 16 ^ k + n / 16 % 16 ^ k) * 16 + n % 16 = acc * 16 ^ (k + 1) + n % 16 ^ (k + 1) := by
      rw [Nat.pow_succ', Nat.mod_mul]
      ring
    rw [hexDigits, List.append_assoc, ih, List.singleton_append, hexNumber, hexValue_hexDigit (Nat.mod_lt n (by decide))]
    exact congrArg (hexNumber · cs) hdigits

/-- An operand of `k` digits reads back as the number printed, when `k` digits hold it. -/
theorem hexOperand_hexDigits {k n : Nat} (h : n < 16 ^ k) : hexOperand k ('0' :: 'x' :: hexDigits k n) = some n := by
  have hread := hexNumber_hexDigits_append 0 k n []
  rw [List.append_nil, Nat.zero_mul, Nat.zero_add, Nat.mod_eq_of_lt h] at hread
  simp [hexOperand, hread, hexNumber]

/-- Characters that neither end a token nor are one. -/
def IsWord (cs : List Char) : Prop := ∀ c ∈ cs, c ≠ ';' ∧ c ≠ ' ' ∧ c ≠ ','

theorem isWord_hexDigits (k n : Nat) : IsWord (hexDigits k n) := by
  have hdigit : ∀ d : Fin 16, hexDigit d ≠ ';' ∧ hexDigit d ≠ ' ' ∧ hexDigit d ≠ ',' := by decide
  induction k generalizing n with
  | zero => exact nofun
  | succ k ih =>
    intro c hc
    rcases List.mem_append.1 hc with hc | hc
    · exact ih _ c hc
    · rw [List.mem_singleton.1 hc]
      exact hdigit ⟨n % 16, Nat.mod_lt n (by decide)⟩

theorem isWord_operand (k n : Nat) : IsWord ('0' :: 'x' :: hexDigits k n) :=
  List.forall_mem_cons.2 ⟨by decide, List.forall_mem_cons.2 ⟨by decide, isWord_hexDigits k n⟩⟩

/-- Such characters are gathered into the token being read. -/
theorem assemblyTokens_word (word : List Char) {cs : List Char} (rest : List Char) (h : IsWord cs) :
    assemblyTokens word (cs ++ rest) = assemblyTokens (cs.reverse ++ word) rest := by
  induction cs generalizing word with
  | nil => rfl
  | cons c cs ih =>
    obtain ⟨⟨hsemicolon, hspace, hcomma⟩, hcs⟩ := List.forall_mem_cons.1 h
    simp [assemblyTokens, hsemicolon, hspace, hcomma, ih _ hcs]

/-- The end of the line ends a token. -/
theorem assemblyTokens_word_end {cs : List Char} (h : IsWord cs) (hne : cs ≠ []) : assemblyTokens [] cs = [cs] := by
  have hend := assemblyTokens_word [] [] h
  rw [List.append_nil] at hend
  simp [hend, assemblyTokens, hne]

/-- A space ends a token. -/
theorem assemblyTokens_word_space {cs : List Char} (rest : List Char) (h : IsWord cs) (hne : cs ≠ []) :
    assemblyTokens [] (cs ++ ' ' :: rest) = cs :: assemblyTokens [] rest := by
  simp [assemblyTokens_word [] _ h, assemblyTokens, hne]

/-- A comma ends a token and is one. -/
theorem assemblyTokens_word_comma {cs : List Char} (rest : List Char) (h : IsWord cs) (hne : cs ≠ []) :
    assemblyTokens [] (cs ++ ',' :: rest) = cs :: [','] :: assemblyTokens [] rest := by
  simp [assemblyTokens_word [] _ h, assemblyTokens, hne]

/-- A space before a token is passed over. -/
theorem assemblyTokens_space (rest : List Char) : assemblyTokens [] (' ' :: rest) = assemblyTokens [] rest := by
  simp [assemblyTokens]

theorem isWord_mnemonic : IsWord ['D', 'E', 'C'] ∧ IsWord ['E', 'N', 'C'] := by
  simp [IsWord]

/-- The tokens of the text of a DEC. -/
theorem assemblyTokens_dec (nameOf : SlotId → List Char) (bits : Pattern16) :
    assemblyTokens [] (assemblyOf nameOf (.dec bits)) = [['D', 'E', 'C'], '0' :: 'x' :: hexDigits 4 bits.toNat] := by
  have htext : assemblyOf nameOf (.dec bits) = ['D', 'E', 'C'] ++ ' ' :: '0' :: 'x' :: hexDigits 4 bits.toNat := rfl
  rw [htext, assemblyTokens_word_space _ isWord_mnemonic.1 (List.cons_ne_nil _ _),
    assemblyTokens_word_end (isWord_operand _ _) (List.cons_ne_nil _ _)]

/-- The tokens of the text of an ENC to a slot whose name holds no separator. -/
theorem assemblyTokens_enc (nameOf : SlotId → List Char) (value : Pattern32) {dst : SlotId}
    (hname : IsWord ('@' :: nameOf dst)) :
    assemblyTokens [] (assemblyOf nameOf (.enc value dst)) =
      [['E', 'N', 'C'], '0' :: 'x' :: hexDigits 8 value.toNat, [','], '@' :: nameOf dst] := by
  have htext : assemblyOf nameOf (.enc value dst) = ['E', 'N', 'C'] ++ ' ' ::
      ('0' :: 'x' :: hexDigits 8 value.toNat ++ ',' :: ' ' :: '@' :: nameOf dst) := by simp [assemblyOf]
  rw [htext, assemblyTokens_word_space _ isWord_mnemonic.2 (List.cons_ne_nil _ _),
    assemblyTokens_word_comma _ (isWord_operand _ _) (List.cons_ne_nil _ _), assemblyTokens_space,
    assemblyTokens_word_end hname (List.cons_ne_nil _ _)]

/-- Settles O9: the text falls into the tokens it was made of, and each token reads back. -/
theorem assemblyTextReadsBack : Obligations.AssemblyTextReadsBack := by
  intro nameOf slotOf i hslot hfree
  cases i with
  | dec bits =>
    rw [parseAssembly, assemblyTokens_dec]
    simp [hexOperand_hexDigits (k := 4) bits.isLt]
  | enc value dst =>
    obtain ⟨hspace, hcomma, hsemicolon⟩ := hfree dst
    have hname : IsWord ('@' :: nameOf dst) := List.forall_mem_cons.2 ⟨by decide, fun c hc =>
      ⟨ne_of_mem_of_not_mem hc hsemicolon, ne_of_mem_of_not_mem hc hspace, ne_of_mem_of_not_mem hc hcomma⟩⟩
    rw [parseAssembly, assemblyTokens_enc nameOf value hname]
    simp [hexOperand_hexDigits (k := 8) value.isLt, hslot]

/-! ## Classes -/

/-- The class of a pattern with exponent field `x` and significand field `f`, whatever their widths. -/
def classOf {e m : Nat} (x : BitVec e) (f : BitVec m) : FloatClass :=
  if x = 0#e then (if f = 0#m then .zero else .subnormal)
  else if x = BitVec.allOnes e then (if f = 0#m then .infinity else .nan)
  else .normal

/-- An exponent field that is neither all zeros nor all ones lies strictly between them. -/
theorem expo_between {e : Nat} {x : BitVec e} :
    (1 ≤ x.toNat ∧ x.toNat ≤ 2 ^ e - 2) ↔ x ≠ 0#e ∧ x ≠ BitVec.allOnes e := by
  have hlt := x.isLt
  rw [Ne, Ne, ← BitVec.toNat_inj, ← BitVec.toNat_inj, BitVec.toNat_allOnes, BitVec.toNat_ofNat, Nat.zero_mod]
  omega

/-- The rows of the class tables (30_encoding.md R56, R58), for every width. -/
theorem classOf_rows {e m : Nat} (he : 0 < e) (x : BitVec e) (f : BitVec m) :
    (classOf x f = .zero ↔ x = 0#e ∧ f = 0#m) ∧
    (classOf x f = .subnormal ↔ x = 0#e ∧ f ≠ 0#m) ∧
    (classOf x f = .normal ↔ 1 ≤ x.toNat ∧ x.toNat ≤ 2 ^ e - 2) ∧
    (classOf x f = .infinity ↔ x = BitVec.allOnes e ∧ f = 0#m) ∧
    (classOf x f = .nan ↔ x = BitVec.allOnes e ∧ f ≠ 0#m) := by
  have hne : 0#e ≠ BitVec.allOnes e := fun h => Nat.ne_of_gt he (BitVec.zero_eq_allOnes_iff.1 h)
  rw [expo_between]
  by_cases h0 : x = 0#e
  · subst h0
    by_cases hf : f = 0#m <;> simp [classOf, hf, hne]
  · by_cases h1 : x = BitVec.allOnes e
    · subst h1
      by_cases hf : f = 0#m <;> simp [classOf, hf, hne.symm]
    · simp [classOf, h0, h1]

theorem class16_eq_classOf (h : Pattern16) : class16 h = classOf (expo16 h) (mant16 h) := rfl

theorem class32_eq_classOf (f : Pattern32) : class32 f = classOf (expo32 f) (frac32 f) := rfl

/-- Settles O8: the two tables are one table at two widths. -/
theorem classesMeetTheirConditions : Obligations.ClassesMeetTheirConditions := by
  refine ⟨fun h => ?_, fun f => ?_⟩
  · rw [class16_eq_classOf]
    exact classOf_rows (by decide) (expo16 h) (mant16 h)
  · rw [class32_eq_classOf]
    exact classOf_rows (by decide) (expo32 f) (frac32 f)

end Sys2Proof.Machine
end

section
/-! PROOFS. The statements of 40_decode.md: DEC by the class of its operand, the fields and the value of its response, the
order of its responses, and the constraints on the NaN parameters. -/

namespace Sys2Proof.Machine

/-! ## DEC on an operand given by its fields -/

/-- Every pattern is one of the five classes, given by its fields (30_encoding.md R56). -/
theorem pattern16_cases {motive : Pattern16 → Prop}
    (zero : ∀ sg : BitVec 1, motive (sg ++ 0#5 ++ 0#10))
    (subnormal : ∀ (sg : BitVec 1) (m : BitVec 10), m ≠ 0#10 → motive (sg ++ 0#5 ++ m))
    (normal : ∀ (sg : BitVec 1) (e : BitVec 5) (m : BitVec 10), e ≠ 0#5 → e ≠ 31#5 → motive (sg ++ e ++ m))
    (infinity : ∀ sg : BitVec 1, motive (sg ++ 31#5 ++ 0#10))
    (nan : ∀ (sg : BitVec 1) (m : BitVec 10), m ≠ 0#10 → motive (sg ++ 31#5 ++ m)) (b : Pattern16) : motive b := by
  obtain ⟨sg, e, m, rfl⟩ : ∃ sg e m, b = sg ++ e ++ m := ⟨_, _, _, patternIsItsFields.1 b⟩
  by_cases h0 : e = 0#5
  · subst h0
    by_cases hm : m = 0#10
    · exact hm ▸ zero sg
    · exact subnormal sg m hm
  · by_cases h31 : e = 31#5
    · subst h31
      by_cases hm : m = 0#10
      · exact hm ▸ infinity sg
      · exact nan sg m hm
    · exact normal sg e m h0 h31

/-- Which fields are a NaN's (30_encoding.md R60). -/
@[simp] theorem isNaN16_fields (sg : BitVec 1) (e : BitVec 5) (m : BitVec 10) :
    isNaN16 (sg ++ e ++ m) ↔ e = 31#5 ∧ m ≠ 0#10 := by
  rw [isNaN16, expo16_fields, mant16_fields]

@[simp] theorem decBits_zero (N : Pattern16 → Pattern32) (sg : BitVec 1) :
    decBits N (sg ++ 0#5 ++ 0#10) = decZero sg := by
  simp [decBits, class16]

theorem decBits_subnormal (N : Pattern16 → Pattern32) (sg : BitVec 1) {m : BitVec 10} (hm : m ≠ 0#10) :
    decBits N (sg ++ 0#5 ++ m) = decSubnormal sg m := by
  simp [decBits, class16, hm]

theorem decBits_normal (N : Pattern16 → Pattern32) (sg : BitVec 1) {e : BitVec 5} (m : BitVec 10)
    (h0 : e ≠ 0#5) (h31 : e ≠ 31#5) : decBits N (sg ++ e ++ m) = decNormal sg e m := by
  simp [decBits, class16, h0, h31]

theorem decBits_of_isInf16 (N : Pattern16 → Pattern32) {b : Pattern16} (hb : isInf16 b) :
    decBits N b = decInf (sign16 b) := by
  simp [decBits, class16, hb.1, hb.2]

@[simp] theorem decBits_infinity (N : Pattern16 → Pattern32) (sg : BitVec 1) :
    decBits N (sg ++ 31#5 ++ 0#10) = decInf sg := by
  rw [decBits_of_isInf16 N ⟨expo16_fields .., mant16_fields ..⟩, sign16_fields]

theorem decBits_of_isNaN16 (N : Pattern16 → Pattern32) {b : Pattern16} (hb : isNaN16 b) : decBits N b = N b := by
  simp [decBits, class16, hb.1, hb.2]

/-! ## The NaN parameters -/

/-- A free value below `2^w - 1`, plus one, is a nonzero field of `w` bits (logs 5 and 6). -/
theorem ofNat_succ_ne_zero {w n : Nat} (h : n + 1 < 2 ^ w) : BitVec.ofNat w (n + 1) ≠ 0#w := by
  rw [Ne, ← BitVec.toNat_inj, BitVec.toNat_ofNat, BitVec.toNat_ofNat, Nat.mod_eq_of_lt h, Nat.zero_mod]
  exact Nat.succ_ne_zero n

theorem decNan_admissible (n : Nat) : DecNanAdmissible (decNan n) := by
  intro b _
  rw [decNan, sign32_fields, expo32_fields, frac32_fields]
  exact ⟨rfl, rfl, ofNat_succ_ne_zero (Nat.succ_lt_succ (Config.freeDecFraction n b).isLt)⟩

theorem encNan_admissible (n : Nat) : EncNanAdmissible (encNan n) := by
  intro v _
  rw [encNan, expo16_fields, mant16_fields]
  exact ⟨rfl, ofNat_succ_ne_zero (Nat.succ_lt_succ (Config.freeEncMantissa n v).isLt)⟩

/-- A field with a bit set is not zero. -/
theorem ne_zero_of_getLsbD {w : Nat} {x : BitVec w} {i : Nat} (h : x.getLsbD i = true) : x ≠ 0#w := by
  rintro rfl
  simp at h

/-- The quiet bit is a bit of the fraction (30_encoding.md R66). -/
theorem frac32_quiet_bit (f : Pattern32) : (frac32 f).getLsbD 22 = f.getLsbD 22 := by
  simp [frac32]

/-- The quiet bit is a bit of the mantissa (30_encoding.md R66). -/
theorem mant16_quiet_bit (h : Pattern16) : (mant16 h).getLsbD 9 = h.getLsbD 9 := by
  simp [mant16]

theorem decNanDefault_quiet_bit (b : Pattern16) : (frac32 (decNanDefault b)).getLsbD 22 = true := by
  rw [decNanDefault, frac32_fields, BitVec.getLsbD_or, Bool.or_eq_true]
  exact .inr rfl

theorem encNanDefault_quiet_bit (v : Pattern32) : (mant16 (encNanDefault v)).getLsbD 9 = true := by
  rw [encNanDefault, mant16_fields, BitVec.getLsbD_or, Bool.or_eq_true]
  exact .inr rfl

theorem decNanDefault_admissible : DecNanAdmissible decNanDefault := fun b _ =>
  ⟨sign32_fields .., expo32_fields .., ne_zero_of_getLsbD (decNanDefault_quiet_bit b)⟩

theorem encNanDefault_admissible : EncNanAdmissible encNanDefault := fun v _ =>
  ⟨expo16_fields .., ne_zero_of_getLsbD (encNanDefault_quiet_bit v)⟩

/-- Settles O40: the free values of the machine are nonzero by their range, and the defaults by the quiet bit, which they
force to 1. -/
theorem nanParametersAreAdmissible : Obligations.NaNParametersAreAdmissible :=
  ⟨decNan_admissible, encNan_admissible, decNanDefault_admissible, encNanDefault_admissible,
    fun b hb => ⟨(decNanDefault_admissible b hb).2, frac32_quiet_bit _ ▸ decNanDefault_quiet_bit b⟩,
    fun v hv => ⟨encNanDefault_admissible v hv, mant16_quiet_bit _ ▸ encNanDefault_quiet_bit v⟩⟩

/-! ## The fields of the response -/

/-- A field is zero as a number when it is zero as a bit pattern. -/
theorem toNat_ne_zero_iff {w : Nat} {x : BitVec w} : x.toNat ≠ 0 ↔ x ≠ 0#w := by
  rw [Ne, Ne, ← BitVec.toNat_inj, BitVec.toNat_ofNat, Nat.zero_mod]

/-- The leading bit of a subnormal's mantissa is among its ten bits. -/
theorem log2_mantissa_le {m : BitVec 10} (hm : m ≠ 0#10) : m.toNat.log2 ≤ 9 :=
  Nat.le_of_lt_succ ((Nat.log2_lt (toNat_ne_zero_iff.2 hm)).2 m.isLt)

/-- A number shifted so that its leading bit lands on bit 23 (40_decode.md R78). -/
theorem leadingBit_on_bit23 {n : Nat} (h0 : n ≠ 0) (hk : n.log2 ≤ 23) :
    2 ^ 23 ≤ n * 2 ^ (23 - n.log2) ∧ n * 2 ^ (23 - n.log2) < 2 ^ 24 := by
  have hsplit : (2 : Nat) ^ 23 = 2 ^ n.log2 * 2 ^ (23 - n.log2) := by rw [← Nat.pow_add, Nat.add_sub_cancel' hk]
  have hlow := Nat.mul_le_mul_right (2 ^ (23 - n.log2)) (Nat.log2_self_le h0)
  have hhigh := Nat.mul_lt_mul_of_pos_right (Nat.lt_log2_self (n := n)) (Nat.two_pow_pos (23 - n.log2))
  rw [Nat.pow_succ] at hhigh
  constructor
  · omega
  · calc n * 2 ^ (23 - n.log2) < 2 ^ n.log2 * 2 * 2 ^ (23 - n.log2) := hhigh
      _ = 2 ^ 24 := by rw [Nat.mul_right_comm, ← hsplit, ← Nat.pow_succ]

/-- The fields of the response to a subnormal, as numbers (40_decode.md R78): the leading bit of the mantissa is dropped. -/
theorem decSubnormal_fields (sg : BitVec 1) {m : BitVec 10} (hm : m ≠ 0#10) :
    (expo32 (decSubnormal sg m)).toNat = 103 + m.toNat.log2 ∧
    (frac32 (decSubnormal sg m)).toNat = m.toNat * 2 ^ (23 - m.toNat.log2) - 2 ^ 23 := by
  have hk := log2_mantissa_le hm
  obtain ⟨hlow, hhigh⟩ := leadingBit_on_bit23 (toNat_ne_zero_iff.2 hm) (by omega)
  rw [decSubnormal, expo32_fields, frac32_fields, BitVec.toNat_ofNat, BitVec.toNat_ofNat, Nat.shiftLeft_eq]
  omega

/-- The fields of the response to a normal, as numbers (40_decode.md R79): both fit. -/
theorem decNormal_fields (sg : BitVec 1) (e : BitVec 5) (m : BitVec 10) :
    (expo32 (decNormal sg e m)).toNat = e.toNat + 112 ∧ (frac32 (decNormal sg e m)).toNat = m.toNat * 2 ^ 13 := by
  have he := e.isLt
  have hm := m.isLt
  rw [decNormal, expo32_fields, frac32_fields, BitVec.toNat_ofNat, BitVec.toNat_ofNat, Nat.shiftLeft_eq]
  omega

/-- The exponent field of a normal operand. -/
theorem expo_normal {e : BitVec 5} (h0 : e ≠ 0#5) (h31 : e ≠ 31#5) : 1 ≤ e.toNat ∧ e.toNat ≤ 30 :=
  expo_between.2 ⟨h0, h31⟩

/-- DEC preserves the sign, also of a NaN where `DEC_NAN` does (40_decode.md R76). -/
theorem sign32_decBits {N : Pattern16 → Pattern32} (hN : DecNanAdmissible N) (b : Pattern16) :
    sign32 (decBits N b) = sign16 b := by
  cases b using pattern16_cases with
  | zero sg => rw [decBits_zero, decZero, sign32_fields, sign16_fields]
  | subnormal sg m hm => rw [decBits_subnormal N sg hm, decSubnormal, sign32_fields, sign16_fields]
  | normal sg e m h0 h31 => rw [decBits_normal N sg m h0 h31, decNormal, sign32_fields, sign16_fields]
  | infinity sg => rw [decBits_infinity, decInf, sign32_fields, sign16_fields]
  | nan sg m hm =>
    have hnan : isNaN16 (sg ++ 31#5 ++ m) := (isNaN16_fields ..).2 ⟨rfl, hm⟩
    rw [decBits_of_isNaN16 N hnan]
    exact (hN _ hnan).1

/-- DEC of a pattern that is no NaN preserves the sign, whatever `DEC_NAN` is (40_decode.md R76). -/
theorem sign32_decBits_of_not_nan (N : Pattern16 → Pattern32) {b : Pattern16} (h : ¬ isNaN16 b) :
    sign32 (decBits N b) = sign16 b :=
  decBits_of_not_nan N decNanDefault h ▸ sign32_decBits decNanDefault_admissible b

/-- The row of the binary32 normals (30_encoding.md R58). -/
theorem class32_eq_normal_iff (f : Pattern32) :
    class32 f = .normal ↔ 1 ≤ (expo32 f).toNat ∧ (expo32 f).toNat ≤ 254 := by
  obtain ⟨_, _, hnormal, _⟩ := classesMeetTheirConditions.2 f
  exact hnormal

/-- A fraction that is a multiple of `2^k` has its low `k` bits clear. -/
theorem fields_low_bits {k n : Nat} (x : BitVec 9) (hk : k ≤ 23) (hn : 2 ^ k ∣ n) :
    (x ++ BitVec.ofNat 23 n).extractLsb' 0 k = 0#k := by
  rw [extract_append_low _ _ (by omega), ← BitVec.toNat_inj, BitVec.extractLsb'_toNat, BitVec.toNat_ofNat,
    Nat.shiftRight_zero, Nat.mod_mod_of_dvd _ (Nat.pow_dvd_pow 2 hk), Nat.mod_eq_zero_of_dvd hn, BitVec.toNat_ofNat,
    Nat.zero_mod]

/-- The low 14 bits of the response to a subnormal, and any fewer, are clear (40_decode.md R78). -/
theorem decSubnormal_low_bits (sg : BitVec 1) {m : BitVec 10} (hm : m ≠ 0#10) {j : Nat} (hj : j ≤ 14) :
    (decSubnormal sg m).extractLsb' 0 j = 0#j := by
  have hk := log2_mantissa_le hm
  refine fields_low_bits _ (by omega) ((Nat.dvd_mod_iff (Nat.pow_dvd_pow 2 (by omega))).2 ?_)
  rw [Nat.shiftLeft_eq]
  exact Nat.dvd_mul_left_of_dvd (Nat.pow_dvd_pow 2 (by omega)) _

/-! ## One DEC of the machine -/

/-- DEC as the named updates of the state (40_decode.md R75). -/
theorem exec_dec (b : Pattern16) (s : State) :
    exec (.dec b) s = .next ((s.respond (decBits (decNan s.draws) b)).drawIf (isNaN16 b)) := rfl

/-- Settles O10. -/
theorem decCompletesAndOnlyResponds : Obligations.DecCompletesAndOnlyResponds := by
  intro b s
  rw [exec_dec]
  simp only [State.respond, State.drawIf, decide_eq_true_eq]

/-- DEC of a pattern that is no NaN changes nothing but the response (40_decode.md R82). -/
theorem exec_dec_of_not_nan {b : Pattern16} (h : ¬ isNaN16 b) (s : State) :
    exec (.dec b) s = .next { s with response := some (decBits (decNan s.draws) b) } := by
  rw [decCompletesAndOnlyResponds, if_neg h]

/-- Settles O11. -/
theorem decOfZeroIsSignedZero : Obligations.DecOfZeroIsSignedZero := by
  intro sg s
  rw [exec_dec_of_not_nan (by simp), decBits_zero, decZero]

/-- Settles O14. -/
theorem decOfInfinityIsInfinity : Obligations.DecOfInfinityIsInfinity := by
  intro sg s
  rw [exec_dec_of_not_nan (by simp), decBits_infinity, decInf]

/-- Settles O12: the bounds on `m` say that `k` is the index of its leading bit. -/
theorem decOfSubnormalIsNormalised : Obligations.DecOfSubnormalIsNormalised := by
  intro sg m k s hlow hhigh
  have h0 : m.toNat ≠ 0 := Nat.ne_of_gt (Nat.lt_of_lt_of_le (Nat.two_pow_pos k) hlow)
  obtain rfl : m.toNat.log2 = k := (Nat.log2_eq_iff h0).2 ⟨hlow, hhigh⟩
  have hm : m ≠ 0#10 := toNat_ne_zero_iff.1 h0
  have hk := log2_mantissa_le hm
  obtain ⟨hexpo, _⟩ := decSubnormal_fields sg hm
  refine ⟨hk, decSubnormal sg m, ?_, ?_, hexpo, ?_, decSubnormal_low_bits sg hm le_rfl⟩
  · rw [decSubnormal, Nat.shiftLeft_eq]
  · rw [exec_dec_of_not_nan (by simp), decBits_subnormal _ sg hm]
  · rw [class32_eq_normal_iff]
    omega

/-- Settles O13. -/
theorem decOfNormalRebiasesTheExponent : Obligations.DecOfNormalRebiasesTheExponent := by
  intro sg e m s hlow hhigh
  obtain ⟨h0, h31⟩ : e ≠ 0#5 ∧ e ≠ 31#5 := expo_between.1 ⟨hlow, hhigh⟩
  refine ⟨decNormal sg e m, ?_, ?_, decNormal_fields sg e m⟩
  · rw [decNormal, Nat.shiftLeft_eq]
  · rw [exec_dec_of_not_nan (by simp [h31]), decBits_normal _ sg m h0 h31]

/-- Settles O15: the fraction is the free value of the draw. -/
theorem decOfNaNIsSomeNaN : Obligations.DecOfNaNIsSomeNaN := by
  intro sg m s hm
  have hnan : isNaN16 (sg ++ 31#5 ++ m) := (isNaN16_fields ..).2 ⟨rfl, hm⟩
  obtain ⟨hsign, hexpo, hfrac⟩ := decNan_admissible s.draws _ hnan
  rw [sign16_fields] at hsign
  refine ⟨_, hfrac, ?_⟩
  rw [decCompletesAndOnlyResponds, if_pos hnan, decBits_of_isNaN16 _ hnan]
  nth_rw 1 [patternIsItsFields.2 (decNan s.draws _), hsign, hexpo]

/-- Settles O16. -/
theorem decPreservesTheSign : Obligations.DecPreservesTheSign := fun b s =>
  ⟨_, _, exec_dec b s, rfl, sign32_decBits (decNan_admissible s.draws) b⟩

/-- Settles O21. -/
theorem decResponseDependsOnOperandAlone : Obligations.DecResponseDependsOnOperandAlone := by
  intro b s₁ s₂ h
  refine ⟨_, _, decBits (decNan s₁.draws) b, exec_dec b s₁, exec_dec b s₂, rfl, ?_⟩
  rcases h with hb | hdraws
  · rw [decBits_of_not_nan (decNan s₁.draws) (decNan s₂.draws) hb]
    rfl
  · rw [hdraws]
    rfl

/-! ## Exactness and shape -/

/-- The response to a subnormal has the operand's magnitude: the shift and the exponent cancel (40_decode.md R78). -/
theorem mag32_decSubnormal (sg : BitVec 1) {m : BitVec 10} (hm : m ≠ 0#10) :
    mag32 (decSubnormal sg m) = mag16 (sg ++ 0#5 ++ m) := by
  have hk := log2_mantissa_le hm
  obtain ⟨hlow, _⟩ := leadingBit_on_bit23 (toNat_ne_zero_iff.2 hm) (by omega)
  rw [mag32_eq _ _ _ (decSubnormal_fields sg hm), if_neg (by omega), mag16_eq _ 0 m.toNat (by simp), if_pos rfl]
  generalize m.toNat.log2 = k at hk hlow ⊢
  have hpow : (2 : ℚ) ^ (23 - k) * (2 : ℚ) ^ (((103 + k : Nat) : ℤ) - 150) = (2 : ℚ) ^ (-24 : ℤ) := by
    rw [← zpow_natCast, ← zpow_add₀ (by norm_num)]
    congr 1
    omega
  rw [Nat.cast_sub hlow, ← hpow]
  push_cast
  ring

/-- The response to a normal has the operand's magnitude (40_decode.md R79). -/
theorem mag32_decNormal (sg : BitVec 1) {e : BitVec 5} (m : BitVec 10) (h0 : e ≠ 0#5) :
    mag32 (decNormal sg e m) = mag16 (sg ++ e ++ m) := by
  rw [mag32_eq _ _ _ (decNormal_fields sg e m), if_neg (by omega), mag16_eq _ e.toNat m.toNat (by simp),
    if_neg (toNat_ne_zero_iff.2 h0)]
  have hpow : (2 : ℚ) ^ 13 * (2 : ℚ) ^ (((e.toNat + 112 : Nat) : ℤ) - 150) = (2 : ℚ) ^ ((e.toNat : ℤ) - 25) := by
    rw [← zpow_natCast, ← zpow_add₀ (by norm_num)]
    congr 1
    omega
  rw [← hpow]
  push_cast
  ring

theorem isFinite32_of_expo_lt {f : Pattern32} (h : (expo32 f).toNat < 255) : isFinite32 f := by
  intro he
  simp [he] at h

/-- DEC of a finite pattern is finite and of the same magnitude (40_decode.md R83). -/
theorem decBits_of_finite (N : Pattern16 → Pattern32) {b : Pattern16} (hb : isFinite16 b) :
    isFinite32 (decBits N b) ∧ mag32 (decBits N b) = mag16 b := by
  cases b using pattern16_cases with
  | zero sg => simp [decZero, mag32, mag16]
  | subnormal sg m hm =>
    have hk := log2_mantissa_le hm
    obtain ⟨hexpo, _⟩ := decSubnormal_fields sg hm
    rw [decBits_subnormal N sg hm]
    exact ⟨isFinite32_of_expo_lt (by omega), mag32_decSubnormal sg hm⟩
  | normal sg e m h0 h31 =>
    have he := expo_normal h0 h31
    obtain ⟨hexpo, _⟩ := decNormal_fields sg e m
    rw [decBits_normal N sg m h0 h31]
    exact ⟨isFinite32_of_expo_lt (by omega), mag32_decNormal sg m h0⟩
  | infinity sg => exact absurd (expo16_fields ..) hb
  | nan sg m hm => exact absurd (expo16_fields ..) hb

/-- An infinite response comes from an infinity alone, and a NaN from a NaN alone (40_decode.md R83). -/
theorem decBits_nonfinite_iff {N : Pattern16 → Pattern32} (hN : DecNanAdmissible N) (b : Pattern16) :
    (isInf32 (decBits N b) ↔ isInf16 b) ∧ (isNaN32 (decBits N b) ↔ isNaN16 b) := by
  by_cases hfin : isFinite16 b
  · obtain ⟨hfin32, _⟩ := decBits_of_finite N hfin
    exact ⟨iff_of_false (hfin32 ·.1) (hfin ·.1), iff_of_false (hfin32 ·.1) (hfin ·.1)⟩
  · have hexpo : expo16 b = 31#5 := not_not.1 hfin
    by_cases hmant : mant16 b = 0#10
    · rw [decBits_of_isInf16 N ⟨hexpo, hmant⟩, isInf32, isNaN32, decInf, expo32_fields, frac32_fields]
      exact ⟨iff_of_true ⟨rfl, rfl⟩ ⟨hexpo, hmant⟩, iff_of_false (·.2 rfl) (·.2 hmant)⟩
    · obtain ⟨_, hexpo32, hfrac32⟩ := hN b ⟨hexpo, hmant⟩
      rw [decBits_of_isNaN16 N ⟨hexpo, hmant⟩]
      exact ⟨iff_of_false (hfrac32 ·.2) (hmant ·.2), iff_of_true ⟨hexpo32, hfrac32⟩ ⟨hexpo, hmant⟩⟩

/-- Settles O17. -/
theorem decIsExact : Obligations.DecIsExact := by
  intro b s
  have hN := decNan_admissible s.draws
  obtain ⟨hinf, hnan⟩ := decBits_nonfinite_iff hN b
  exact ⟨_, _, exec_dec b s, rfl, hinf, hnan, fun _ => sign32_decBits hN b, decBits_of_finite _⟩

/-- Settles O18. -/
theorem decResponseShape : Obligations.DecResponseShape := by
  intro N b hb
  cases b using pattern16_cases with
  | zero sg =>
    rw [decBits_zero, decZero]
    exact ⟨fields_low_bits (n := 0) _ (by decide) (dvd_zero _), by simp [class16], by simp [class32]⟩
  | subnormal sg m hm =>
    have hk := log2_mantissa_le hm
    obtain ⟨hexpo, _⟩ := decSubnormal_fields sg hm
    have hnormal : class32 (decSubnormal sg m) = .normal := (class32_eq_normal_iff _).2 (by omega)
    rw [decBits_subnormal N sg hm, hnormal]
    exact ⟨decSubnormal_low_bits sg hm (by decide), by omega, by decide⟩
  | normal sg e m h0 h31 =>
    have he := expo_normal h0 h31
    obtain ⟨hexpo, _⟩ := decNormal_fields sg e m
    have hnormal : class32 (decNormal sg e m) = .normal := (class32_eq_normal_iff _).2 (by omega)
    rw [decBits_normal N sg m h0 h31, hnormal]
    refine ⟨fields_low_bits _ (by decide) ?_, by omega, by decide⟩
    rw [Nat.shiftLeft_eq]
    exact Nat.dvd_mul_left _ _
  | infinity sg =>
    rw [decBits_infinity, decInf]
    exact ⟨fields_low_bits (n := 0) _ (by decide) (dvd_zero _), by simp, by simp [class32]⟩
  | nan sg m hm => exact absurd ((isNaN16_fields ..).2 ⟨rfl, hm⟩) hb

/-! ## The order of the responses -/

/-- The 31 bits below the sign in DEC's response to a pattern whose 15 bits below the sign are `j`, for `j` up to the
infinity `0x7C00`. -/
def decMagnitude (j : Nat) : Nat :=
  if j = 0 then 0
  else if j < 0x400 then (102 + j.log2) * 2 ^ 23 + j * 2 ^ (23 - j.log2)
  else if j < 0x7C00 then 112 * 2 ^ 23 + j * 2 ^ 13
  else 255 * 2 ^ 23

theorem toNat_fields32 (f : Pattern32) :
    f.toNat = (sign32 f).toNat * 2 ^ 31 + (expo32 f).toNat * 2 ^ 23 + (frac32 f).toNat := by
  have hf := f.isLt
  simp only [sign32, expo32, frac32, BitVec.extractLsb'_toNat, Nat.shiftRight_eq_div_pow]
  omega

theorem low15_toNat (h : Pattern16) : (low15 h).toNat = (expo16 h).toNat * 2 ^ 10 + (mant16 h).toNat := by
  simp only [low15, expo16, mant16, BitVec.extractLsb'_toNat, Nat.shiftRight_eq_div_pow]
  omega

theorem toNat_sign16_low15 (h : Pattern16) : h.toNat = (sign16 h).toNat * 2 ^ 15 + (low15 h).toNat := by
  have hh := h.isLt
  simp only [sign16, low15, BitVec.extractLsb'_toNat, Nat.shiftRight_eq_div_pow]
  omega

/-- What is no NaN lies up to the infinity in the magnitude order (30_encoding.md R56). -/
theorem not_isNaN16_iff_low15 (h : Pattern16) : ¬ isNaN16 h ↔ (low15 h).toNat ≤ 0x7C00 := by
  have he := (expo16 h).isLt
  have hm := (mant16 h).isLt
  rw [low15_toNat, isNaN16, Ne, ← BitVec.toNat_inj, ← BitVec.toNat_inj, BitVec.toNat_ofNat, BitVec.toNat_ofNat]
  omega

/-- The response as a number: the sign over `decMagnitude` of the bits below the sign. -/
theorem toNat_decBits (N : Pattern16 → Pattern32) {b : Pattern16} (hb : ¬ isNaN16 b) :
    (decBits N b).toNat = (sign16 b).toNat * 2 ^ 31 + decMagnitude (low15 b).toNat := by
  rw [toNat_fields32, sign32_decBits_of_not_nan N hb, Nat.add_assoc, Nat.add_left_cancel_iff, low15_toNat]
  cases b using pattern16_cases with
  | zero sg => simp [decZero, decMagnitude]
  | subnormal sg m hm =>
    have hne := toNat_ne_zero_iff.2 hm
    have hlt := m.isLt
    have hk := log2_mantissa_le hm
    obtain ⟨hlow, _⟩ := leadingBit_on_bit23 hne (by omega)
    obtain ⟨hexpo, hfrac⟩ := decSubnormal_fields sg hm
    rw [decBits_subnormal N sg hm, hexpo, hfrac, expo16_fields, mant16_fields, BitVec.toNat_ofNat, Nat.zero_mod,
      Nat.zero_mul, Nat.zero_add, decMagnitude, if_neg hne, if_pos hlt]
    omega
  | normal sg e m h0 h31 =>
    have hlt := m.isLt
    have he := expo_normal h0 h31
    obtain ⟨hexpo, hfrac⟩ := decNormal_fields sg e m
    rw [decBits_normal N sg m h0 h31, hexpo, hfrac, expo16_fields, mant16_fields, decMagnitude, if_neg (by omega),
      if_neg (by omega), if_pos (by omega)]
    omega
  | infinity sg => simp [decInf, decMagnitude]
  | nan sg m hm => exact absurd ((isNaN16_fields ..).2 ⟨rfl, hm⟩) hb

/-- A subnormal's response lies in the binade its leading bit gives. -/
theorem decMagnitude_subnormal_bounds {j : Nat} (h0 : j ≠ 0) (h : j < 0x400) :
    (103 + j.log2) * 2 ^ 23 ≤ decMagnitude j ∧ decMagnitude j < (104 + j.log2) * 2 ^ 23 ∧ j.log2 ≤ 9 := by
  have hk : j.log2 < 10 := (Nat.log2_lt h0).2 h
  obtain ⟨hlow, hhigh⟩ := leadingBit_on_bit23 h0 (by omega)
  rw [decMagnitude, if_neg h0, if_pos h]
  omega

@[simp] theorem decMagnitude_zero : decMagnitude 0 = 0 := rfl

/-- What lies below the normals has its response below theirs. -/
theorem decMagnitude_lt_of_lt {j : Nat} (h : j < 0x400) : decMagnitude j < 113 * 2 ^ 23 := by
  rcases eq_or_ne j 0 with rfl | h0
  · decide
  · obtain ⟨_, hhigh, hk⟩ := decMagnitude_subnormal_bounds h0 h
    exact Nat.lt_of_lt_of_le hhigh (Nat.mul_le_mul_right _ (by omega))

theorem decMagnitude_normal {j : Nat} (hlow : 0x400 ≤ j) (hhigh : j < 0x7C00) :
    decMagnitude j = 112 * 2 ^ 23 + j * 2 ^ 13 := by
  rw [decMagnitude, if_neg (by omega), if_neg (by omega), if_pos hhigh]

/-- Two subnormals are in the same binade, where the order is that of the shifted mantissas, or in different ones. -/
theorem decMagnitude_lt_of_subnormal {i j : Nat} (h0 : i ≠ 0) (hij : i < j) (hj : j < 0x400) :
    decMagnitude i < decMagnitude j := by
  obtain ⟨_, hi, _⟩ := decMagnitude_subnormal_bounds h0 (by omega)
  obtain ⟨hj', _, _⟩ := decMagnitude_subnormal_bounds (by omega) hj
  have hk : i.log2 ≤ j.log2 := (Nat.le_log2 (by omega)).2 (Nat.le_trans (Nat.log2_self_le h0) (Nat.le_of_lt hij))
  rcases Nat.lt_or_eq_of_le hk with hlt | heq
  · omega
  · have hmul := Nat.mul_lt_mul_of_pos_right hij (Nat.two_pow_pos (23 - j.log2))
    rw [decMagnitude, decMagnitude, if_neg h0, if_pos (by omega), if_neg (by omega), if_pos hj, heq]
    omega

/-- DEC keeps the magnitude order up to the infinity (40_decode.md R84 e): the pieces of `decMagnitude` are increasing and
follow one another. -/
theorem decMagnitude_strictMonoOn : StrictMonoOn decMagnitude (Set.Iic 0x7C00) := by
  intro i _ j (hj : j ≤ 0x7C00) hij
  have hinf : decMagnitude 0x7C00 = 255 * 2 ^ 23 := rfl
  rcases Nat.lt_or_ge j 0x400 with hsub | hnormal
  · rcases eq_or_ne i 0 with rfl | hi
    · obtain ⟨hlow, _, _⟩ := decMagnitude_subnormal_bounds (Nat.ne_of_gt hij) hsub
      rw [decMagnitude_zero]
      omega
    · exact decMagnitude_lt_of_subnormal hi hij hsub
  · have hi : decMagnitude i < 112 * 2 ^ 23 + j * 2 ^ 13 := by
      rcases Nat.lt_or_ge i 0x400 with hsub | hnormal'
      · have := decMagnitude_lt_of_lt hsub
        omega
      · rw [decMagnitude_normal hnormal' (by omega)]
        omega
    rcases Nat.lt_or_eq_of_le hj with hlt | rfl
    · rwa [decMagnitude_normal hnormal hlt]
    · rw [hinf]
      omega

/-- Settles O19: the response gives the sign and, since `decMagnitude` is increasing, the bits below it. -/
theorem decIsInjectiveOffNaN : Obligations.DecIsInjectiveOffNaN := by
  intro N b c hb hc h
  have hsign : sign16 b = sign16 c := by
    rw [← sign32_decBits_of_not_nan N hb, h, sign32_decBits_of_not_nan N hc]
  have hlow : (low15 b).toNat = (low15 c).toNat := by
    refine decMagnitude_strictMonoOn.injOn ((not_isNaN16_iff_low15 b).1 hb) ((not_isNaN16_iff_low15 c).1 hc) ?_
    have hnat := congrArg BitVec.toNat h
    rw [toNat_decBits N hb, toNat_decBits N hc, hsign] at hnat
    exact Nat.add_left_cancel hnat
  rw [← BitVec.toNat_inj, toNat_sign16_low15, toNat_sign16_low15 c, hsign, hlow]

/-- On operands of one sign that are no NaN, the bits below the sign order the responses (40_decode.md R84 e). -/
theorem decBits_lt_of_low15_lt (N : Pattern16 → Pattern32) {b c : Pattern16} (hb : ¬ isNaN16 b) (hc : ¬ isNaN16 c)
    (hsign : sign16 b = sign16 c) (h : (low15 b).toNat < (low15 c).toNat) : (decBits N b).toNat < (decBits N c).toNat := by
  rw [toNat_decBits N hb, toNat_decBits N hc, hsign]
  exact Nat.add_lt_add_left
    (decMagnitude_strictMonoOn ((not_isNaN16_iff_low15 b).1 hb) ((not_isNaN16_iff_low15 c).1 hc) h) _

/-- A pattern up to the positive infinity is its bits below the sign. -/
theorem sign16_low15_of_le {b : Pattern16} (h : b.toNat ≤ 0x7C00) : sign16 b = 0#1 ∧ (low15 b).toNat = b.toNat := by
  have hfields := toNat_sign16_low15 b
  rw [← BitVec.toNat_inj, BitVec.toNat_ofNat]
  omega

/-- Settles O20. -/
theorem decIsStrictlyMonotone : Obligations.DecIsStrictlyMonotone := by
  refine ⟨fun N b c hc hbc => ?_, fun N b c hb hc => decBits_lt_of_low15_lt N hb hc⟩
  obtain ⟨hsb, hlb⟩ := sign16_low15_of_le (b := b) (by omega)
  obtain ⟨hsc, hlc⟩ := sign16_low15_of_le hc
  have hnb : ¬ isNaN16 b := (not_isNaN16_iff_low15 b).2 (by omega)
  have hnc : ¬ isNaN16 c := (not_isNaN16_iff_low15 c).2 (by omega)
  exact decBits_lt_of_low15_lt N hnb hnc (hsb.trans hsc.symm) (by omega)

end Sys2Proof.Machine
end

section
/-! PROOFS. The statements of 41_encode.md: the grid of R88 and the rounding by value, that the bit-level procedure of R93
is that rounding, and what follows from it for the result of ENC. -/

namespace Sys2Proof.Machine

/-! ## The 15 bits below the sign -/

/-- The finite patterns lie below the infinity in the magnitude order (30_encoding.md R60). -/
theorem isFinite16_iff_low15 (h : Pattern16) : isFinite16 h ↔ (low15 h).toNat < 0x7C00 := by
  have he := (expo16 h).isLt
  have hm := (mant16 h).isLt
  rw [low15_toNat, isFinite16, Ne, ← BitVec.toNat_inj, BitVec.toNat_ofNat]
  omega

/-- The infinity in the magnitude order (30_encoding.md R60). -/
theorem isInf16_iff_low15 (h : Pattern16) : isInf16 h ↔ (low15 h).toNat = 0x7C00 := by
  have hm := (mant16 h).isLt
  rw [low15_toNat, isInf16, ← BitVec.toNat_inj, ← BitVec.toNat_inj, BitVec.toNat_ofNat, BitVec.toNat_ofNat]
  omega

/-- The zeros are the least patterns in the magnitude order (30_encoding.md R56). -/
theorem class16_eq_zero_iff_low15 (h : Pattern16) : class16 h = .zero ↔ (low15 h).toNat = 0 := by
  obtain ⟨hzero, _⟩ := classesMeetTheirConditions.1 h
  rw [hzero, low15_toNat, ← BitVec.toNat_inj, ← BitVec.toNat_inj, BitVec.toNat_ofNat, BitVec.toNat_ofNat]
  omega

/-- A number of 15 bits as a pattern is its own bits below the sign. -/
theorem low15_ofNat {i : Nat} (hi : i < 2 ^ 15) : (low15 (BitVec.ofNat 16 i)).toNat = i := by
  rw [low15, BitVec.extractLsb'_toNat, BitVec.toNat_ofNat, Nat.shiftRight_zero]
  omega

/-- A power of two split off a power of two. -/
theorem two_zpow_eq_mul {a b : ℤ} (n : Nat) (h : a = n + b) : (2 : ℚ) ^ a = 2 ^ n * (2 : ℚ) ^ b := by
  rw [h, zpow_add₀ two_ne_zero, zpow_natCast]

/-- The magnitude is linear in the bits below the sign from `(e - 1) * 1024 + 1024` to `(e - 1) * 1024 + 2048`, and for
`e = 1` from 0 on: subnormals and the first binade have one spacing (30_encoding.md R61). -/
theorem mag16_of_low15 {h : Pattern16} {e q : Nat} (he : 1 ≤ e) (hq : q ≤ 2048) (hbinade : e = 1 ∨ 1024 ≤ q)
    (hlow : (low15 h).toNat = (e - 1) * 1024 + q) : mag16 h = q * (2 : ℚ) ^ ((e : ℤ) - 25) := by
  have hm := (mant16 h).isLt
  rw [low15_toNat] at hlow
  rcases Nat.lt_or_ge q 1024 with hsub | hnormal
  · obtain rfl : e = 1 := by omega
    rw [mag16_eq h 0 q (by omega), if_pos rfl]
    norm_num
  · rcases Nat.lt_or_eq_of_le hq with hlt | rfl
    · rw [mag16_eq h e (q - 1024) (by omega), if_neg (by omega), Nat.cast_sub hnormal]
      push_cast
      ring
    · rw [mag16_eq h (e + 1) 0 (by omega), if_neg (by omega), two_zpow_eq_mul (b := (e : ℤ) - 25) 1 (by omega)]
      push_cast
      ring

/-! ## The grid of representable magnitudes -/

/-- `G` on the stretch of one spacing that `e` names, the step past the largest finite pattern included (41_encode.md R88). -/
theorem gridMag_binade {e q : Nat} (he : 1 ≤ e) (he' : e ≤ 30) (hq : q ≤ 2048) (hbinade : e = 1 ∨ 1024 ≤ q) :
    gridMag ((e - 1) * 1024 + q) = q * (2 : ℚ) ^ ((e : ℤ) - 25) := by
  rw [gridMag]
  split
  · obtain ⟨rfl, rfl⟩ : e = 30 ∧ q = 2048 := by omega
    norm_num
  · exact mag16_of_low15 he hq hbinade (low15_ofNat (by omega))

/-- The magnitude of a finite pattern is `G` of its bits below the sign (41_encode.md R88). -/
theorem mag16_eq_gridMag {h : Pattern16} (hfin : isFinite16 h) : mag16 h = gridMag (low15 h).toNat := by
  have hlt := (isFinite16_iff_low15 h).1 hfin
  have hfields : (expo16 (BitVec.ofNat 16 (low15 h).toNat)).toNat = (expo16 h).toNat ∧
      (mant16 (BitVec.ofNat 16 (low15 h).toNat)).toNat = (mant16 h).toNat := by
    have hlow := low15_ofNat (low15 h).isLt
    have hm := (mant16 h).isLt
    have hm' := (mant16 (BitVec.ofNat 16 (low15 h).toNat)).isLt
    rw [low15_toNat (BitVec.ofNat 16 _)] at hlow
    rw [low15_toNat h] at hlow hm' ⊢
    omega
  rw [gridMag, if_neg (Nat.ne_of_lt hlt), mag16_eq h _ _ ⟨rfl, rfl⟩, mag16_eq _ _ _ hfields]

/-- The exponent field that gives the spacing of the grid after `i`: subnormals have that of the first binade. -/
def gridExponent (i : Nat) : Nat := max 1 (i / 1024)

/-- The gap between two neighbours on the grid. -/
theorem gridMag_succ {i : Nat} (hi : i ≤ 0x7BFF) :
    gridMag (i + 1) = gridMag i + (2 : ℚ) ^ ((gridExponent i : ℤ) - 25) := by
  obtain ⟨q, hq, hq', hbinade⟩ : ∃ q, i = (gridExponent i - 1) * 1024 + q ∧ q < 2048 ∧
      (gridExponent i = 1 ∨ 1024 ≤ q) := ⟨i - (gridExponent i - 1) * 1024, by unfold gridExponent; omega⟩
  have he : 1 ≤ gridExponent i ∧ gridExponent i ≤ 30 := by unfold gridExponent; omega
  generalize gridExponent i = e at *
  rw [hq, Nat.add_assoc, gridMag_binade he.1 he.2 (by omega) (by omega), gridMag_binade he.1 he.2 (by omega) hbinade]
  push_cast
  ring

theorem gridMag_strictMonoOn : StrictMonoOn gridMag (Set.Iic 0x7C00) :=
  strictMonoOn_of_lt_add_one Set.ordConnected_Iic fun i _ _ (hi : i + 1 ≤ 0x7C00) => by
    rw [gridMag_succ (by omega)]
    exact lt_add_of_pos_right _ (by positivity)

theorem gridMag_lt_iff {i j : Nat} (hi : i ≤ 0x7C00) (hj : j ≤ 0x7C00) : gridMag i < gridMag j ↔ i < j :=
  gridMag_strictMonoOn.lt_iff_lt hi hj

theorem gridMag_le_iff {i j : Nat} (hi : i ≤ 0x7C00) (hj : j ≤ 0x7C00) : gridMag i ≤ gridMag j ↔ i ≤ j :=
  gridMag_strictMonoOn.le_iff_le hi hj

@[simp] theorem gridMag_zero : gridMag 0 = 0 := by
  simpa using gridMag_binade (e := 1) (q := 0) le_rfl (by omega) (by omega) (.inl rfl)

theorem gridMag_one : gridMag 1 = (2 : ℚ) ^ (-24 : ℤ) := by
  simpa using gridMag_binade (e := 1) (q := 1) le_rfl (by omega) (by omega) (.inl rfl)

/-- The largest finite pattern (30_encoding.md R65). -/
theorem gridMag_largest : gridMag 0x7BFF = 65504 := by
  rw [show 0x7BFF = (30 - 1) * 1024 + 2047 from rfl, gridMag_binade (by omega) le_rfl (by omega) (by omega)]
  norm_num

@[simp] theorem gridMag_last : gridMag 0x7C00 = 2 ^ 16 := if_pos rfl

/-- The powers of two on the grid, where a normal binade begins (41_encode.md R88). -/
theorem gridMag_mul_1024 {e : Nat} (he : 1 ≤ e) (he' : e ≤ 31) : gridMag (e * 1024) = (2 : ℚ) ^ ((e : ℤ) - 15) := by
  obtain ⟨k, rfl⟩ := Nat.exists_eq_add_one.2 he
  rcases Nat.lt_or_eq_of_le he' with hlt | heq
  · have hbinade := gridMag_binade (e := k + 1) (q := 1024) he (by omega) (by omega) (.inr le_rfl)
    rw [Nat.add_one_mul, two_zpow_eq_mul 10 (b := ((k + 1 : Nat) : ℤ) - 25) (by omega)]
    exact hbinade.trans (by norm_num)
  · rw [heq, gridMag_last]
    norm_num

/-- Settles O26. -/
theorem gridIsStrictlyIncreasing : Obligations.GridIsStrictlyIncreasing :=
  ⟨fun _ _ hij hj => (gridMag_lt_iff (hij.le.trans hj) hj).2 hij, gridMag_zero, gridMag_one, gridMag_largest,
    gridMag_last.trans (by norm_num)⟩

/-! ## The rounding by value -/

/-- The midpoint of `i` and its successor on the grid, where a tie is (41_encode.md R88). -/
def gridMid (i : Nat) : ℚ := (gridMag i + gridMag (i + 1)) / 2

theorem gridMid_between {i : Nat} (hi : i ≤ 0x7BFF) : gridMag i < gridMid i ∧ gridMid i < gridMag (i + 1) := by
  have hlt := (gridMag_lt_iff (i := i) (j := i + 1) (by omega) (by omega)).2 (Nat.lt_succ_self i)
  rw [gridMid]
  constructor <;> linarith

/-- `gridMid` on the stretch of one spacing that `e` names. -/
theorem gridMid_binade {e q : Nat} (he : 1 ≤ e) (he' : e ≤ 30) (hq : q ≤ 2047) (hbinade : e = 1 ∨ 1024 ≤ q) :
    gridMid ((e - 1) * 1024 + q) = (q + 1 / 2) * (2 : ℚ) ^ ((e : ℤ) - 25) := by
  rw [gridMid, Nat.add_assoc, gridMag_binade he he' (by omega) hbinade, gridMag_binade he he' (by omega) (by omega)]
  push_cast
  ring

/-- Whether a magnitude with lower neighbour `i` goes up from `i`: above the midpoint, and on it from an odd `i`
(41_encode.md R88). -/
def roundUpFrom (i : Nat) (x : ℚ) : Nat := if gridMid i < x ∨ (x = gridMid i ∧ i % 2 = 1) then 1 else 0

theorem roundUpFrom_of_lt {i : Nat} {x : ℚ} (h : x < gridMid i) : roundUpFrom i x = 0 :=
  if_neg (by simp [h.not_gt, h.ne])

theorem roundUpFrom_of_gt {i : Nat} {x : ℚ} (h : gridMid i < x) : roundUpFrom i x = 1 := if_pos (.inl h)

/-- At a tie the even neighbour is taken. -/
theorem roundUpFrom_gridMid (i : Nat) : roundUpFrom i (gridMid i) = i % 2 := by
  simp only [roundUpFrom, lt_irrefl, true_and, false_or]
  split <;> omega

theorem roundUpFrom_le_one (i : Nat) (x : ℚ) : roundUpFrom i x ≤ 1 := by
  rw [roundUpFrom]
  split <;> decide

/-- What lies at or above `i` and below the successor of `k` has `i` at most `k`. -/
theorem le_of_gridMag {x : ℚ} {i k : Nat} (hi : i ≤ 0x7BFF) (hk : k ≤ 0x7BFF) (hlow : gridMag i ≤ x)
    (hhigh : x < gridMag (k + 1)) : i ≤ k :=
  Nat.le_of_lt_succ ((gridMag_lt_iff (by omega) (by omega)).1 (hlow.trans_lt hhigh))

/-- With the lower neighbour given, the rule names one pattern (41_encode.md R88). -/
theorem roundsToNearestEven_iff {x : ℚ} {i : Nat} (hi : i ≤ 0x7BFF) (hlow : gridMag i ≤ x) (hhigh : x < gridMag (i + 1))
    (j : Nat) : RoundsToNearestEven x j ↔ j = i + roundUpFrom i x := by
  have hx : x < 2 ^ 16 := hhigh.trans_le (gridMag_last ▸ (gridMag_le_iff (by omega) le_rfl).2 (by omega))
  constructor
  · rintro ⟨_, hbelow⟩
    obtain ⟨k, hk, hklow, hkhigh, hdown, hup, htie⟩ := hbelow hx
    obtain rfl : k = i := Nat.le_antisymm (le_of_gridMag hk hi hklow hhigh) (le_of_gridMag hi hk hlow hkhigh)
    rcases lt_trichotomy x (gridMid k) with hlt | rfl | hgt
    · rw [roundUpFrom_of_lt hlt]
      exact hdown (by rw [gridMid] at hlt; linarith)
    · obtain ⟨hj, heven⟩ := htie (by rw [gridMid]; ring)
      rw [roundUpFrom_gridMid]
      omega
    · rw [roundUpFrom_of_gt hgt]
      exact hup (by rw [gridMid] at hgt; linarith)
  · rintro rfl
    refine ⟨fun h => absurd hx (not_lt.2 h), fun _ => ⟨i, hi, hlow, hhigh, fun h => ?_, fun h => ?_, fun h => ?_⟩⟩
    · rw [roundUpFrom_of_lt (by rw [gridMid]; linarith), Nat.add_zero]
    · rw [roundUpFrom_of_gt (by rw [gridMid]; linarith)]
    · obtain rfl : x = gridMid i := by rw [gridMid]; linarith
      rw [roundUpFrom_gridMid]
      omega

/-- A magnitude below a grid point has a lower neighbour before it. -/
theorem exists_lower_neighbour {x : ℚ} (h0 : 0 ≤ x) (n : Nat) (hn : x < gridMag n) :
    ∃ i < n, gridMag i ≤ x ∧ x < gridMag (i + 1) := by
  induction n with
  | zero => exact absurd h0 (not_le.2 (gridMag_zero ▸ hn))
  | succ n ih =>
    by_cases hx : x < gridMag n
    · obtain ⟨i, hi, hbounds⟩ := ih hx
      exact ⟨i, Nat.lt_succ_of_lt hi, hbounds⟩
    · exact ⟨n, Nat.lt_succ_self n, not_lt.1 hx, hn⟩

/-- From `2^16` on the rounded pattern is the infinity (41_encode.md R88). -/
theorem roundsToNearestEven_iff_of_ge {x : ℚ} (hx : 2 ^ 16 ≤ x) (j : Nat) : RoundsToNearestEven x j ↔ j = 0x7C00 :=
  ⟨fun h => h.1 hx, fun h => ⟨fun _ => h, fun hlt => absurd hx (not_le.2 hlt)⟩⟩

/-- Settles O27: the lower neighbour is unique because `G` is strictly increasing, and it gives the rounded pattern. -/
theorem roundingIsAFunctionOfTheMagnitude : Obligations.RoundingIsAFunctionOfTheMagnitude := by
  have hneighbour : ∀ x : ℚ, 0 ≤ x → x < 2 ^ 16 → ∃! i, i ≤ 0x7BFF ∧ gridMag i ≤ x ∧ x < gridMag (i + 1) := by
    intro x h0 hx
    obtain ⟨i, hi, hlow, hhigh⟩ := exists_lower_neighbour h0 0x7C00 (gridMag_last.symm ▸ hx)
    refine ⟨i, ⟨Nat.le_of_lt_succ hi, hlow, hhigh⟩, fun k ⟨hk, hklow, hkhigh⟩ => ?_⟩
    exact Nat.le_antisymm (le_of_gridMag hk (by omega) hklow hhigh) (le_of_gridMag (by omega) hk hlow hkhigh)
  refine ⟨hneighbour, fun x h0 => ?_⟩
  rcases lt_or_ge x (2 ^ 16) with hx | hx
  · obtain ⟨i, ⟨hi, hlow, hhigh⟩, _⟩ := hneighbour x h0 hx
    simp [roundsToNearestEven_iff hi hlow hhigh]
  · simp [roundsToNearestEven_iff_of_ge hx]

/-! ## The rounded pattern against a bound -/

theorem RoundsToNearestEven.le_infinity {x : ℚ} {j : Nat} (h : RoundsToNearestEven x j) : j ≤ 0x7C00 := by
  rcases lt_or_ge x (2 ^ 16) with hx | hx
  · obtain ⟨i, hi, hlow, hhigh, _⟩ := h.2 hx
    have hup := roundUpFrom_le_one i x
    rw [(roundsToNearestEven_iff hi hlow hhigh j).1 h]
    omega
  · exact Nat.le_of_eq (h.1 hx)

/-- The rounded pattern is at most `i` exactly up to the midpoint after `i`, which an even `i` includes (41_encode.md R88). -/
theorem RoundsToNearestEven.le_iff {x : ℚ} {j i : Nat} (h : RoundsToNearestEven x j) (hi : i ≤ 0x7BFF) :
    j ≤ i ↔ x < gridMid i ∨ (x = gridMid i ∧ i % 2 = 0) := by
  obtain ⟨hmid, hmid'⟩ := gridMid_between hi
  have habove : ∀ n ≤ 0x7C00, i < n → gridMag n ≤ x → ¬ (x < gridMid i ∨ (x = gridMid i ∧ i % 2 = 0)) := by
    intro n hn hin hx
    have hgt : gridMid i < x := (hmid'.trans_le ((gridMag_le_iff (by omega) hn).2 hin)).trans_le hx
    simp [hgt.not_gt, hgt.ne']
  rcases lt_or_ge x (2 ^ 16) with hx | hx
  · obtain ⟨k, hk, hlow, hhigh, _⟩ := h.2 hx
    have hup := roundUpFrom_le_one k x
    rw [(roundsToNearestEven_iff hk hlow hhigh j).1 h]
    rcases Nat.lt_trichotomy i k with hik | rfl | hki
    · exact iff_of_false (by omega) (habove k (by omega) hik hlow)
    · rcases lt_trichotomy x (gridMid i) with hlt | rfl | hgt
      · simp [roundUpFrom_of_lt hlt, hlt]
      · simp [roundUpFrom_gridMid]
      · simp [roundUpFrom_of_gt hgt, hgt.not_gt, hgt.ne']
    · have hnext : gridMag (k + 1) ≤ gridMag i := (gridMag_le_iff (by omega) (by omega)).2 hki
      exact iff_of_true (by omega) (.inl (by linarith))
  · rw [h.1 hx]
    exact iff_of_false (by omega) (habove 0x7C00 le_rfl (by omega) (gridMag_last ▸ hx))

/-- The rounding is monotone (41_encode.md R98 e). -/
theorem RoundsToNearestEven.mono {x y : ℚ} {j k : Nat} (hx : RoundsToNearestEven x j) (hy : RoundsToNearestEven y k)
    (hxy : x ≤ y) : j ≤ k := by
  rcases Nat.lt_or_eq_of_le hy.le_infinity with hk | rfl
  · rw [hx.le_iff (by omega)]
    rcases (hy.le_iff (Nat.le_of_lt_succ hk)).1 le_rfl with hlt | ⟨rfl, heven⟩
    · exact .inl (hxy.trans_lt hlt)
    · exact (lt_or_eq_of_le hxy).imp_right (⟨·, heven⟩)
  · exact hx.le_infinity

/-- A magnitude on the grid rounds to itself (41_encode.md R88). -/
theorem roundsToNearestEven_gridMag {i : Nat} (hi : i ≤ 0x7C00) : RoundsToNearestEven (gridMag i) i := by
  rcases Nat.lt_or_eq_of_le hi with hlt | rfl
  · obtain ⟨hmid, hsucc⟩ := gridMid_between (Nat.le_of_lt_succ hlt)
    rw [roundsToNearestEven_iff (by omega) le_rfl (hmid.trans hsucc), roundUpFrom_of_lt hmid, Nat.add_zero]
  · exact (roundsToNearestEven_iff_of_ge gridMag_last.ge _).2 rfl

/-- The rounded pattern of what lies at or above a grid point. -/
theorem RoundsToNearestEven.ge_of_ge {x : ℚ} {i j : Nat} (h : RoundsToNearestEven x j) (hi : i ≤ 0x7C00)
    (hx : gridMag i ≤ x) : i ≤ j :=
  (roundsToNearestEven_gridMag hi).mono h hx

/-- The rounded pattern of what lies at or below a grid point. -/
theorem RoundsToNearestEven.le_of_le {x : ℚ} {i j : Nat} (h : RoundsToNearestEven x j) (hi : i ≤ 0x7C00)
    (hx : x ≤ gridMag i) : j ≤ i :=
  h.mono (roundsToNearestEven_gridMag hi) hx

/-- The distance to the rounded pattern is at most half the gap at the lower neighbour (41_encode.md R98 f). -/
theorem RoundsToNearestEven.error_le {x : ℚ} {j i : Nat} (h : RoundsToNearestEven x j) (hi : i ≤ 0x7BFF)
    (hlow : gridMag i ≤ x) (hhigh : x < gridMag (i + 1)) :
    |gridMag j - x| ≤ (2 : ℚ) ^ ((gridExponent i : ℤ) - 26) := by
  have hhalf : (2 : ℚ) ^ ((gridExponent i : ℤ) - 25) = 2 ^ 1 * (2 : ℚ) ^ ((gridExponent i : ℤ) - 26) :=
    two_zpow_eq_mul 1 (by omega)
  have hsucc := gridMag_succ hi
  have hmid : gridMid i = (gridMag i + gridMag (i + 1)) / 2 := rfl
  rw [(roundsToNearestEven_iff hi hlow hhigh j).1 h, abs_le]
  rcases lt_trichotomy x (gridMid i) with hlt | rfl | hgt
  · rw [roundUpFrom_of_lt hlt, Nat.add_zero]
    constructor <;> linarith
  · rw [roundUpFrom_gridMid]
    rcases Nat.mod_two_eq_zero_or_one i with heven | hodd
    · rw [heven, Nat.add_zero]
      constructor <;> linarith
    · rw [hodd]
      constructor <;> linarith
  · rw [roundUpFrom_of_gt hgt]
    constructor <;> linarith

/-! ## The landmarks of the rounding -/

/-- Up to the tie at `2^-25` the rounded pattern is zero (41_encode.md R89). -/
theorem RoundsToNearestEven.eq_zero_iff {x : ℚ} {j : Nat} (h : RoundsToNearestEven x j) :
    j = 0 ↔ x ≤ (2 : ℚ) ^ (-25 : ℤ) := by
  have hmid : gridMid 0 = (2 : ℚ) ^ (-25 : ℤ) := by
    rw [gridMid_binade (e := 1) (q := 0) le_rfl (by omega) (by omega) (.inl rfl)]
    norm_num
  rw [← Nat.le_zero, h.le_iff (by omega), hmid, le_iff_lt_or_eq]
  simp

/-- Below `1023.5 * 2^-24` the rounded pattern is a subnormal or zero; the tie goes to the smallest normal
(41_encode.md R89). -/
theorem RoundsToNearestEven.subnormal_iff {x : ℚ} {j : Nat} (h : RoundsToNearestEven x j) :
    j ≤ 0x3FF ↔ x < 1023.5 * (2 : ℚ) ^ (-24 : ℤ) := by
  have hmid : gridMid 0x3FF = 1023.5 * (2 : ℚ) ^ (-24 : ℤ) := by
    rw [gridMid_binade (e := 1) (q := 0x3FF) le_rfl (by omega) (by omega) (.inl rfl)]
    norm_num
  rw [h.le_iff (by omega), hmid]
  simp

/-- Below 65520 the rounded pattern is finite; the tie goes to the infinity (41_encode.md R90). -/
theorem RoundsToNearestEven.finite_iff {x : ℚ} {j : Nat} (h : RoundsToNearestEven x j) : j ≤ 0x7BFF ↔ x < 65520 := by
  have hmid : gridMid 0x7BFF = 65520 := by
    rw [show 0x7BFF = (30 - 1) * 1024 + 2047 from rfl, gridMid_binade (by omega) le_rfl (by omega) (by omega)]
    norm_num
  rw [h.le_iff le_rfl, hmid]
  simp

/-! ## The bit-level procedure -/

/-- The binade of a binary32 normal (30_encoding.md R64). -/
theorem mag32_binade {v : Pattern32} (h0 : (expo32 v).toNat ≠ 0) :
    (2 : ℚ) ^ (((expo32 v).toNat : ℤ) - 127) ≤ mag32 v ∧ mag32 v < (2 : ℚ) ^ (((expo32 v).toNat : ℤ) - 126) := by
  have hF : ((frac32 v).toNat : ℚ) < 2 ^ 23 := by exact_mod_cast (frac32 v).isLt
  have hF0 : (0 : ℚ) ≤ (frac32 v).toNat := Nat.cast_nonneg _
  rw [mag32_eq v _ _ ⟨rfl, rfl⟩, if_neg h0]
  generalize (expo32 v).toNat = E
  rw [two_zpow_eq_mul (b := (E : ℤ) - 150) 23 (by omega),
    two_zpow_eq_mul (a := (E : ℤ) - 126) (b := (E : ℤ) - 150) 24 (by omega)]
  constructor <;> gcongr <;> linarith

/-- A magnitude with exponent field at least `a` (30_encoding.md R64). -/
theorem le_mag32 {v : Pattern32} {a : Nat} (ha : 1 ≤ a) (h : a ≤ (expo32 v).toNat) :
    (2 : ℚ) ^ ((a : ℤ) - 127) ≤ mag32 v :=
  (zpow_le_zpow_right₀ (by norm_num) (by omega)).trans (mag32_binade (by omega)).1

/-- A magnitude with exponent field at most `a` (30_encoding.md R64). -/
theorem mag32_lt {v : Pattern32} {a : Nat} (ha : 1 ≤ a) (h : (expo32 v).toNat ≤ a) :
    mag32 v < (2 : ℚ) ^ ((a : ℤ) - 126) := by
  by_cases h0 : (expo32 v).toNat = 0
  · have hF : ((frac32 v).toNat : ℚ) < 2 ^ 23 := by exact_mod_cast (frac32 v).isLt
    calc mag32 v = (frac32 v).toNat * (2 : ℚ) ^ (-149 : ℤ) := by rw [mag32_eq v _ _ ⟨rfl, rfl⟩, if_pos h0]
      _ < 2 ^ 23 * (2 : ℚ) ^ (-149 : ℤ) := by gcongr
      _ = (2 : ℚ) ^ (-126 : ℤ) := by norm_num
      _ ≤ (2 : ℚ) ^ ((a : ℤ) - 126) := zpow_le_zpow_right₀ (by norm_num) (by omega)
  · exact (mag32_binade h0).2.trans_le (zpow_le_zpow_right₀ (by norm_num) (by omega))

theorem mag32_nonneg (v : Pattern32) : 0 ≤ mag32 v := by
  rw [mag32]
  split <;> positivity

/-- A magnitude given by its place `q` on a stretch of one spacing and a fraction of that spacing rounds by the fraction, and
at one half by the parity of `q` (41_encode.md R88). -/
theorem roundsToNearestEven_of_fraction {e q : Nat} {r : ℚ} (he : 1 ≤ e) (he' : e ≤ 30) (hq : q ≤ 2047)
    (hbinade : e = 1 ∨ 1024 ≤ q) (h0 : 0 ≤ r) (h1 : r < 1) :
    RoundsToNearestEven ((q + r) * (2 : ℚ) ^ ((e : ℤ) - 25))
      ((e - 1) * 1024 + q + if 1 / 2 < r ∨ (r = 1 / 2 ∧ q % 2 = 1) then 1 else 0) := by
  have hgap : (0 : ℚ) < 2 ^ ((e : ℤ) - 25) := by positivity
  have hparity : ((e - 1) * 1024 + q) % 2 = q % 2 := by omega
  rw [roundsToNearestEven_iff (i := (e - 1) * 1024 + q) (by omega)]
  · simp only [roundUpFrom, gridMid_binade he he' hq hbinade, mul_lt_mul_iff_left₀ hgap, mul_left_inj' hgap.ne',
      add_lt_add_iff_left, add_right_inj, hparity]
  · rw [gridMag_binade he he' (by omega) hbinade]
    gcongr
    linarith
  · rw [Nat.add_assoc, gridMag_binade he he' (by omega) (by omega)]
    push_cast
    gcongr

/-- The stretch of the grid in which the procedure places the kept bits: exponent field `E - 112` of a normal result, and 1
below (41_encode.md R93). -/
def encStretch (E : Nat) : Nat := max 1 (E - 112)

theorem encBase_eq (E : Nat) : encBase E = (encStretch E - 1) * 1024 := by
  rw [encBase, encStretch, Nat.shiftLeft_eq]
  split <;> omega

theorem encDropped_add {E : Nat} (hE : E ≤ 142) : encDropped E + E = encStretch E + 125 := by
  rw [encDropped, encStretch]
  split <;> omega

theorem encDropped_ge (E : Nat) : 13 ≤ encDropped E := by
  rw [encDropped]
  split <;> omega

/-- The kept bits: eleven with the top one set for a normal result, and ten at most below (41_encode.md R93). -/
theorem encKept_bounds {E F : Nat} (hF : F < 2 ^ 23) :
    (2 ^ 23 + F) / 2 ^ encDropped E ≤ 2047 ∧ (encStretch E = 1 ∨ 1024 ≤ (2 ^ 23 + F) / 2 ^ encDropped E) := by
  refine ⟨?_, ?_⟩
  · calc (2 ^ 23 + F) / 2 ^ encDropped E ≤ (2 ^ 23 + F) / 2 ^ 13 :=
          Nat.div_le_div_left (Nat.pow_le_pow_right (by decide) (encDropped_ge E)) (by decide)
      _ ≤ 2047 := by omega
  · rw [encDropped, encStretch]
    split <;> omega

/-- The procedure in numbers, between the exponent fields whose result is fixed (41_encode.md R93). -/
theorem encMagnitude_eq {E F : Nat} (hlow : 102 ≤ E) (hhigh : E ≤ 142) (hF : F < 2 ^ 23) :
    encMagnitude E F = (encStretch E - 1) * 1024 + (2 ^ 23 + F) / 2 ^ encDropped E +
      encRoundUp ((2 ^ 23 + F) / 2 ^ encDropped E) ((2 ^ 23 + F) % 2 ^ encDropped E) (2 ^ (encDropped E - 1)) := by
  have hsig : 0x800000 ||| F = 2 ^ 23 + F := (Nat.two_pow_add_eq_or_of_lt hF 1).symm
  rw [encMagnitude, if_neg (by omega), if_neg (by omega)]
  simp only [hsig, encBase_eq, Nat.shiftRight_eq_div_pow, Nat.one_shiftLeft]

/-- The decision of the procedure, with what it drops as a fraction of the last place kept (41_encode.md R93). -/
theorem encRoundUp_eq (q rem : Nat) {n : Nat} (hn : 1 ≤ n) :
    encRoundUp q rem (2 ^ (n - 1)) =
      if 1 / 2 < (rem : ℚ) / 2 ^ n ∨ ((rem : ℚ) / 2 ^ n = 1 / 2 ∧ q % 2 = 1) then 1 else 0 := by
  have hpow : (0 : ℚ) < 2 ^ n := by positivity
  have hhalf : (1 : ℚ) / 2 * 2 ^ n = ((2 ^ (n - 1) : Nat) : ℚ) := by
    rw [← Nat.sub_add_cancel hn, pow_succ]
    push_cast
    ring
  simp only [encRoundUp, lt_div_iff₀ hpow, div_eq_iff hpow.ne', hhalf, Nat.cast_lt, Nat.cast_inj]

/-- The procedure rounds the magnitude to nearest, ties to even: the bits it keeps are the place on the grid and those it drops
the fraction (41_encode.md R93). -/
theorem encMagnitude_rounds {E F : Nat} (hlow : 102 ≤ E) (hhigh : E ≤ 142) (hF : F < 2 ^ 23) :
    RoundsToNearestEven ((2 ^ 23 + (F : ℚ)) * (2 : ℚ) ^ ((E : ℤ) - 150)) (encMagnitude E F) := by
  obtain ⟨hq, hbinade⟩ := encKept_bounds (E := E) hF
  have hdrop := encDropped_add hhigh
  have hge := encDropped_ge E
  have hstretch : 1 ≤ encStretch E ∧ encStretch E ≤ 30 := by unfold encStretch; omega
  rw [encMagnitude_eq hlow hhigh hF, encRoundUp_eq _ _ (by omega)]
  generalize encDropped E = n at *
  have hpow : (0 : ℚ) < 2 ^ n := by positivity
  have hsplit := Nat.div_add_mod (2 ^ 23 + F) (2 ^ n)
  have hrem := Nat.mod_lt (2 ^ 23 + F) (Nat.two_pow_pos n)
  generalize (2 ^ 23 + F) / 2 ^ n = q at *
  generalize (2 ^ 23 + F) % 2 ^ n = rem at *
  have hvalue : (2 ^ 23 + (F : ℚ)) * (2 : ℚ) ^ ((E : ℤ) - 150) =
      (q + rem / 2 ^ n) * (2 : ℚ) ^ ((encStretch E : ℤ) - 25) := by
    have hcast : (2 : ℚ) ^ n * q + rem = 2 ^ 23 + F := by exact_mod_cast hsplit
    rw [two_zpow_eq_mul (a := (encStretch E : ℤ) - 25) (b := (E : ℤ) - 150) n (by omega), ← hcast]
    field_simp
  rw [hvalue]
  exact roundsToNearestEven_of_fraction hstretch.1 hstretch.2 hq hbinade (by positivity)
    ((div_lt_one hpow).2 (by exact_mod_cast hrem))

/-! ## ENC by the class of its operand -/

theorem encBits_of_isNaN32 (M : Pattern32 → Pattern16) {v : Pattern32} (hv : isNaN32 v) : encBits M v = M v :=
  if_pos hv

theorem encBits_of_isInf32 (M : Pattern32 → Pattern16) {v : Pattern32} (hv : isInf32 v) :
    encBits M v = encInf (sign32 v) := by
  rw [encBits, if_neg fun hn => hn.2 hv.2, if_pos hv]

/-- The infinity of a sign, below its sign (30_encoding.md R54). -/
theorem encInf_eq (sg : BitVec 1) : encInf sg = sg ++ 0x7C00#15 := by
  revert sg
  decide

/-- An operand is a NaN, an infinity or finite (30_encoding.md R63). -/
theorem pattern32_cases (v : Pattern32) : isNaN32 v ∨ isInf32 v ∨ isFinite32 v := by
  by_cases he : expo32 v = 255#8
  · by_cases hf : frac32 v = 0#23
    · exact .inr (.inl ⟨he, hf⟩)
    · exact .inl ⟨he, hf⟩
  · exact .inr (.inr he)

/-- The result for an operand that is no NaN is the operand's sign over 15 bits (41_encode.md R87). -/
theorem encBits_eq_sign_low15 (M : Pattern32 → Pattern16) {v : Pattern32} (hv : ¬ isNaN32 v) :
    encBits M v = sign32 v ++ low15 (encBits M v) := by
  rcases (pattern32_cases v).resolve_left hv with hinf | hfin
  · rw [encBits_of_isInf32 M hinf, encInf_eq, low15_append]
  · rw [encBits_of_finite M hfin, encFinite, low15_append]

theorem not_isNaN32_of_finite {v : Pattern32} (hv : isFinite32 v) : ¬ isNaN32 v := fun hnan => hv hnan.1

/-- The procedure rounds the number that `mag32` gives, below, in and above the exponent fields it treats bit by bit
(41_encode.md R88, R93). -/
theorem encMagnitude_rounds_mag32 (v : Pattern32) :
    RoundsToNearestEven (mag32 v) (encMagnitude (expo32 v).toNat (frac32 v).toNat) := by
  rcases Nat.lt_or_ge (expo32 v).toNat 102 with hsmall | hlow
  · have hx : mag32 v < gridMid 0 := by
      refine (mag32_lt (a := 101) (by omega) (by omega)).trans_eq ?_
      rw [gridMid_binade (e := 1) (q := 0) le_rfl (by omega) (by omega) (.inl rfl)]
      norm_num
    have hmid := gridMid_between (i := 0) (by omega)
    rw [encMagnitude, if_pos (by omega), roundsToNearestEven_iff (i := 0) (by omega)
      (gridMag_zero ▸ mag32_nonneg v) (hx.trans hmid.2), roundUpFrom_of_lt hx]
  · rcases Nat.lt_or_ge 142 (expo32 v).toNat with hlarge | hhigh
    · rw [encMagnitude, if_neg (by omega), if_pos (by omega)]
      exact (roundsToNearestEven_iff_of_ge (by simpa using le_mag32 (a := 143) (by omega) hlarge) _).2 rfl
    · rw [mag32_eq v _ _ ⟨rfl, rfl⟩, if_neg (by omega)]
      exact encMagnitude_rounds hlow hhigh (frac32 v).isLt

/-- The 15 bits of the result for a finite operand are the rounded pattern of its magnitude (41_encode.md R88). -/
theorem encBits_rounds (M : Pattern32 → Pattern16) {v : Pattern32} (hv : isFinite32 v) :
    RoundsToNearestEven (mag32 v) (low15 (encBits M v)).toNat := by
  have hrounds := encMagnitude_rounds_mag32 v
  have hle := hrounds.le_infinity
  rwa [encBits_of_finite M hv, encFinite, low15_append, BitVec.toNat_ofNat, Nat.mod_eq_of_lt (by omega)]

/-! ## One ENC of the machine -/

/-- Settles O22. -/
theorem encCompletesAndOnlyWrites : Obligations.EncCompletesAndOnlyWrites := by
  intro v d s
  rw [exec_enc]
  simp only [State.noResponse, State.slotWrite, State.drawIf, decide_eq_true_eq]

/-- ENC of a pattern that is no NaN writes its sign over 15 bits, and draws nothing (41_encode.md R87, R97). -/
theorem exec_enc_of_not_nan {v : Pattern32} (hv : ¬ isNaN32 v) (d : SlotId) (s : State) :
    exec (.enc v d) s = .next { s with
      slots := s.slots.write d (sign32 v ++ low15 (encBits (encNan s.draws) v)), response := none } := by
  rw [encCompletesAndOnlyWrites, if_neg hv, ← encBits_eq_sign_low15 _ hv]

/-- Settles O25. -/
theorem encOfFiniteRoundsToNearestEven : Obligations.EncOfFiniteRoundsToNearestEven := fun _ d s hv =>
  ⟨_, encBits_rounds (encNan s.draws) hv, exec_enc_of_not_nan (not_isNaN32_of_finite hv) d s⟩

/-- Settles O28. -/
theorem encPreservesTheSignOffNaN : Obligations.EncPreservesTheSignOffNaN := fun _ d s hv =>
  ⟨_, _, exec_enc_of_not_nan hv d s, SlotStore.read_write_self .., sign16_append ..⟩

/-- Settles O31. -/
theorem encOfInfinityIsInfinity : Obligations.EncOfInfinityIsInfinity := by
  intro sg d s
  have hinf : isInf32 (sg ++ 0xFF#8 ++ 0#23) := ⟨expo32_fields .., frac32_fields ..⟩
  rw [encCompletesAndOnlyWrites, if_neg fun hnan => hnan.2 hinf.2, encBits_of_isInf32 _ hinf, sign32_fields, encInf]

/-- Settles O32: sign and mantissa are the free values of the draw. -/
theorem encOfNaNIsSomeNaN : Obligations.EncOfNaNIsSomeNaN := by
  intro v d s hv
  obtain ⟨hexpo, hmant⟩ := encNan_admissible s.draws v hv
  refine ⟨sign16 (encNan s.draws v), _, hmant, ?_⟩
  rw [encCompletesAndOnlyWrites, if_pos hv, encBits_of_isNaN32 _ hv, ← hexpo, ← patternIsItsFields.1]

/-- Settles O38. -/
theorem encPatternDependsOnOperandAlone : Obligations.EncPatternDependsOnOperandAlone := by
  intro v d₁ d₂ s₁ s₂ h
  have hbits : encBits (encNan s₂.draws) v = encBits (encNan s₁.draws) v := by
    rcases h with hv | hdraws
    · exact encBits_of_not_nan _ _ hv
    · rw [hdraws]
  exact ⟨_, _, encBits (encNan s₁.draws) v, exec_enc v d₁ s₁, exec_enc v d₂ s₂, SlotStore.read_write_self ..,
    hbits ▸ SlotStore.read_write_self ..⟩

/-! ## The results by magnitude, class and exponent field -/

/-- Settles O29. -/
theorem encUnderflowIsGradual : Obligations.EncUnderflowIsGradual := by
  intro v d s hv
  have hrounds := encBits_rounds (encNan s.draws) hv
  refine ⟨_, exec_enc_of_not_nan (not_isNaN32_of_finite hv) d s, ?_⟩
  generalize low15 (encBits (encNan s.draws) v) = j at hrounds ⊢
  refine ⟨fun hx => ?_, fun hE => ⟨hv, ?_⟩, fun hlow hhigh => ?_, fun hlow hhigh => ⟨?_, ?_⟩, fun hlow hhigh => ?_⟩
  · exact BitVec.eq_of_toNat_eq (hrounds.eq_zero_iff.2 hx.2)
  · exact (mag32_lt (a := 101) (by omega) (by simp [hE])).le
  · have hpos : j.toNat ≠ 0 := fun h => absurd (hrounds.eq_zero_iff.1 h) (not_le.2 hlow)
    have hle : j.toNat ≤ 1 := hrounds.le_of_le (by omega) (gridMag_one ▸ hhigh.le)
    exact BitVec.eq_of_toNat_eq (show j.toNat = 1 by omega)
  · exact hrounds.ge_of_ge (by omega) (gridMag_one ▸ hlow)
  · exact hrounds.subnormal_iff.2 hhigh
  · have hnormal : ¬ j.toNat ≤ 0x3FF := fun h => absurd (hrounds.subnormal_iff.1 h) (not_lt.2 hlow)
    have hle : j.toNat ≤ 1 * 1024 := hrounds.le_of_le (by omega) (by
      rw [gridMag_mul_1024 le_rfl (by omega)]
      exact hhigh.le)
    exact BitVec.eq_of_toNat_eq (show j.toNat = 0x400 by omega)

/-- Settles O30. -/
theorem encOverflowsFrom65520 : Obligations.EncOverflowsFrom65520 := by
  intro v d s hv
  have hrounds := encBits_rounds (encNan s.draws) hv
  refine ⟨_, exec_enc_of_not_nan (not_isNaN32_of_finite hv) d s, ?_⟩
  generalize low15 (encBits (encNan s.draws) v) = j at hrounds ⊢
  have hinf := hrounds.le_infinity
  refine ⟨fun ⟨_, hx⟩ => ?_, fun hlow hhigh => ?_⟩
  · have hnot : ¬ j.toNat ≤ 0x7BFF := fun h => absurd (hrounds.finite_iff.1 h) (not_lt.2 hx)
    obtain rfl : j = 0x7C00#15 := BitVec.eq_of_toNat_eq (show j.toNat = 0x7C00 by omega)
    exact (encInf_eq _).symm
  · have hle := hrounds.finite_iff.2 hhigh
    have hge := hrounds.ge_of_ge (i := 0x7BFF) (by omega) (gridMag_largest ▸ hlow.le)
    exact BitVec.eq_of_toNat_eq (show j.toNat = 0x7BFF by omega)

/-- Settles O34. -/
theorem encResultClass : Obligations.EncResultClass := by
  intro n v
  rw [← not_iff_not (a := isNaN16 _), not_isNaN16_iff_low15, isInf16_iff_low15, class16_eq_zero_iff_low15]
  rcases pattern32_cases v with hnan | hinf | hfin
  · have hnan16 : isNaN16 (encBits (encNan n) v) := encBits_of_isNaN32 (encNan n) hnan ▸ encNan_admissible n v hnan
    have hlow := (not_isNaN16_iff_low15 _).not.1 (not_not.2 hnan16)
    have hfin : ¬ isFinite32 v := not_not.2 hnan.1
    exact ⟨iff_of_false hlow (not_not.2 hnan),
      iff_of_false (by omega) (not_or.2 ⟨fun h => hnan.2 h.2, fun h => hfin h.1⟩),
      iff_of_false (by omega) (fun h => hfin h.1)⟩
  · have hfin : ¬ isFinite32 v := not_not.2 hinf.1
    rw [encBits_of_isInf32 _ hinf, encInf_eq, low15_append]
    exact ⟨iff_of_true (by decide) (fun h => h.2 hinf.2), iff_of_true rfl (.inl hinf),
      iff_of_false (by decide) (fun h => hfin h.1)⟩
  · have hrounds := encBits_rounds (encNan n) hfin
    have hle := hrounds.le_infinity
    have hfinite := hrounds.finite_iff
    refine ⟨iff_of_true hle (not_isNaN32_of_finite hfin), ⟨fun h => .inr ⟨hfin, ?_⟩, fun h => ?_⟩,
      hrounds.eq_zero_iff.trans ⟨fun h => ⟨hfin, h⟩, fun h => h.2⟩⟩
    · exact not_lt.1 fun hlt => absurd (hfinite.2 hlt) (by omega)
    · have hover := (h.resolve_left fun hinf => hfin hinf.1).2
      have := hfinite.not.2 (not_lt.2 hover)
      omega

/-- Settles O35. -/
theorem encIsMonotone : Obligations.EncIsMonotone := fun M _ _ hv hw _ hle =>
  (encBits_rounds M hv).mono (encBits_rounds M hw) hle

/-- From exponent field `e + 112` on the result is at least the beginning of binade `e` (41_encode.md R94). -/
theorem encBits_ge_of_expo (M : Pattern32 → Pattern16) {v : Pattern32} (hv : isFinite32 v) {e : Nat} (he : 1 ≤ e)
    (he' : e ≤ 31) (hE : e + 112 ≤ (expo32 v).toNat) : e * 1024 ≤ (low15 (encBits M v)).toNat := by
  refine (encBits_rounds M hv).ge_of_ge (by omega) ?_
  rw [gridMag_mul_1024 he he', show (e : ℤ) - 15 = (e + 112 : Nat) - 127 by omega]
  exact le_mag32 (by omega) hE

/-- Before exponent field `e + 112` the result is at most the beginning of binade `e` (41_encode.md R94). -/
theorem encBits_le_of_expo (M : Pattern32 → Pattern16) {v : Pattern32} (hv : isFinite32 v) {e : Nat} (he : 1 ≤ e)
    (he' : e ≤ 31) (hE : (expo32 v).toNat < e + 112) : (low15 (encBits M v)).toNat ≤ e * 1024 := by
  refine (encBits_rounds M hv).le_of_le (by omega) ?_
  rw [gridMag_mul_1024 he he', show (e : ℤ) - 15 = (e + 111 : Nat) - 126 by omega]
  exact (mag32_lt (by omega) (by omega)).le

/-- In the binade of the tie at `2^-25` only the tie has a zero fraction (41_encode.md R94). -/
theorem mag32_le_tie_iff {v : Pattern32} (hE : (expo32 v).toNat = 102) :
    mag32 v ≤ (2 : ℚ) ^ (-25 : ℤ) ↔ (frac32 v).toNat = 0 := by
  have htie : (2 : ℚ) ^ (-25 : ℤ) = (2 ^ 23 + (0 : Nat)) * (2 : ℚ) ^ (-48 : ℤ) := by norm_num
  rw [mag32_eq v 102 _ ⟨hE, rfl⟩, if_neg (by omega), htie, ← Nat.le_zero, ← Nat.cast_le (α := ℚ)]
  exact (mul_le_mul_iff_left₀ (show (0 : ℚ) < 2 ^ (-48 : ℤ) by positivity)).trans (add_le_add_iff_left _)

/-- In the last binade of binary16 the operands below 65520 by their fraction (41_encode.md R94). -/
theorem mag32_lt_65520_iff {v : Pattern32} (hE : (expo32 v).toNat = 142) :
    mag32 v < 65520 ↔ (frac32 v).toNat < 0x7FF000 := by
  have hbound : (65520 : ℚ) = (2 ^ 23 + (0x7FF000 : Nat)) * (2 : ℚ) ^ (-8 : ℤ) := by norm_num
  rw [mag32_eq v 142 _ ⟨hE, rfl⟩, if_neg (by omega), hbound, ← Nat.cast_lt (α := ℚ)]
  exact (mul_lt_mul_iff_left₀ (show (0 : ℚ) < 2 ^ (-8 : ℤ) by positivity)).trans (add_lt_add_iff_left _)

/-- Settles O33: the rows are binades, whose ends are on the grid; rows 102 and 142 are split by a tie. -/
theorem encFiniteByExponentField : Obligations.EncFiniteByExponentField := by
  rintro M v _ _ _ rfl rfl rfl
  by_cases hv : isFinite32 v
  · have hrounds := encBits_rounds M hv
    have hinf := hrounds.le_infinity
    refine ⟨fun h => ?_, fun h hF => ?_, fun h hF => ?_, fun h h' => ⟨?_, ?_⟩, fun h h' => ⟨?_, ?_⟩,
      fun h hF => ⟨?_, ?_⟩, fun h hF => ?_, fun h _ => ?_⟩
    · exact hrounds.eq_zero_iff.2 (mag32_lt (a := 101) (by omega) h).le
    · exact hrounds.eq_zero_iff.2 ((mag32_le_tie_iff h).2 hF)
    · have hpos := hrounds.eq_zero_iff.not.2 ((mag32_le_tie_iff h).not.2 hF)
      have hle := hrounds.le_of_le (i := 1) (by omega) (gridMag_one ▸ (mag32_lt (a := 102) (by omega) h.le).le)
      omega
    · exact hrounds.ge_of_ge (by omega) (gridMag_one ▸ le_mag32 (a := 103) (by omega) h)
    · exact encBits_le_of_expo M hv le_rfl (by omega) (by omega)
    · exact encBits_ge_of_expo M hv (by omega) (by omega) (by omega)
    · exact encBits_le_of_expo M hv (by omega) (by omega) (by omega)
    · exact encBits_ge_of_expo M hv (e := 30) (by omega) (by omega) h.ge
    · exact hrounds.finite_iff.2 ((mag32_lt_65520_iff h).2 hF)
    · have hover := (hrounds.finite_iff.trans (mag32_lt_65520_iff h)).not.2 (by omega)
      omega
    · have hover := encBits_ge_of_expo M hv (e := 31) (by omega) (by omega) h
      omega
  · have hE : (expo32 v).toNat = 255 := congrArg BitVec.toNat (not_not.1 hv)
    refine ⟨?_, ?_, ?_, ?_, ?_, ?_, ?_, ?_⟩ <;> omega

/-- The error of ENC by the binade of its operand, of which the first takes in all below (41_encode.md R98 f). -/
theorem encBits_error_le (M : Pattern32 → Pattern16) {v : Pattern32} (hv : isFinite32 v) (hover : ¬ overflows v) {t : ℤ}
    (ht : -14 ≤ t) (ht' : t ≤ 15) (hx : mag32 v < (2 : ℚ) ^ (t + 1)) :
    |mag16 (encBits M v) - mag32 v| ≤ (2 : ℚ) ^ (t - 11) := by
  have hrounds := encBits_rounds M hv
  have hfin : isFinite16 (encBits M v) := (isFinite16_iff_low15 _).2
    (Nat.lt_succ_of_le (hrounds.finite_iff.2 (not_le.1 fun h => hover ⟨hv, h⟩)))
  obtain ⟨e, rfl⟩ : ∃ e : Nat, t = (e : ℤ) - 16 := ⟨(t + 16).toNat, by omega⟩
  rw [show (e : ℤ) - 16 + 1 = e - 15 by ring, ← gridMag_mul_1024 (by omega) (by omega)] at hx
  obtain ⟨i, hi, hlow, hhigh⟩ := exists_lower_neighbour (mag32_nonneg v) (e * 1024) hx
  rw [mag16_eq_gridMag hfin]
  refine (hrounds.error_le (by omega) hlow hhigh).trans (zpow_le_zpow_right₀ (by norm_num) ?_)
  rw [gridExponent]
  omega

/-- Settles O36. -/
theorem encErrorIsAtMostHalfAGap : Obligations.EncErrorIsAtMostHalfAGap := fun M _ hv hover =>
  ⟨encBits_error_le M hv hover (t := -14) le_rfl (by omega),
    fun _ ht ht' _ => encBits_error_le M hv hover ht ht'⟩

/-- Settles O37: a binary16 value is on the grid, where the rounding changes nothing. -/
theorem encIsExactUnlessInexact : Obligations.EncIsExactUnlessInexact := by
  intro M v hv
  have hrepresented : ¬ inexact v ↔ ∃ h, isFinite16 h ∧ mag16 h = mag32 v := by
    simp [inexact, hv]
  rw [hrepresented]
  refine ⟨fun h => ⟨_, h⟩, fun ⟨h, hfin, hmag⟩ => ?_⟩
  have hlt := (isFinite16_iff_low15 h).1 hfin
  rw [mag16_eq_gridMag hfin] at hmag
  have hrounds := hmag ▸ encBits_rounds M hv
  have hlow : (low15 (encBits M v)).toNat = (low15 h).toNat :=
    Nat.le_antisymm (hrounds.le_of_le hlt.le le_rfl) (hrounds.ge_of_ge hlt.le le_rfl)
  have hfin' : isFinite16 (encBits M v) := (isFinite16_iff_low15 _).2 (hlow ▸ hlt)
  exact ⟨hfin', by rw [mag16_eq_gridMag hfin', hlow, hmag]⟩

end Sys2Proof.Machine
end

section
/-! PROOFS. The statements of 42_laws.md: encoding what was decoded and decoding what was encoded, flipping the sign,
the nearest value, and that no operation stops. -/

namespace Sys2Proof.Machine

/-! ## Encoding what was decoded -/

/-- DEC of a pattern that is no NaN is no NaN, whatever `DEC_NAN` is (40_decode.md R83). -/
theorem not_isNaN32_decBits (N : Pattern16 → Pattern32) {b : Pattern16} (hb : ¬ isNaN16 b) :
    ¬ isNaN32 (decBits N b) := by
  rw [decBits_of_not_nan N decNanDefault hb, (decBits_nonfinite_iff decNanDefault_admissible b).2]
  exact hb

/-- ENC of a pattern that is no NaN is no NaN, whatever `ENC_NAN` is (41_encode.md R98 b). -/
theorem not_isNaN16_encBits (M : Pattern32 → Pattern16) {v : Pattern32} (hv : ¬ isNaN32 v) :
    ¬ isNaN16 (encBits M v) := by
  rcases (pattern32_cases v).resolve_left hv with hinf | hfin
  · rw [not_isNaN16_iff_low15, encBits_of_isInf32 M hinf, encInf_eq, low15_append]
    decide
  · exact (not_isNaN16_iff_low15 _).2 (encBits_rounds M hfin).le_infinity

/-- A magnitude on the grid rounds to nothing but itself (41_encode.md R88). -/
theorem RoundsToNearestEven.eq_of_gridMag {i j : Nat} (h : RoundsToNearestEven (gridMag i) j) (hi : i ≤ 0x7C00) :
    j = i :=
  Nat.le_antisymm (h.le_of_le hi le_rfl) (h.ge_of_ge hi le_rfl)

/-- The bits below the sign come back: those of a finite pattern because its magnitude is on the grid, where the rounding
changes nothing (42_laws.md R101). -/
theorem low15_encBits_decBits (N : Pattern16 → Pattern32) (M : Pattern32 → Pattern16) {b : Pattern16}
    (hb : ¬ isNaN16 b) : low15 (encBits M (decBits N b)) = low15 b := by
  by_cases hfin : isFinite16 b
  · obtain ⟨hfin32, hmag⟩ := decBits_of_finite N hfin
    have hrounds := encBits_rounds M hfin32
    rw [hmag, mag16_eq_gridMag hfin] at hrounds
    exact BitVec.eq_of_toNat_eq (hrounds.eq_of_gridMag ((not_isNaN16_iff_low15 b).1 hb))
  · have hinf : isInf16 b := ⟨not_not.1 hfin, not_not.1 fun hm => hb ⟨not_not.1 hfin, hm⟩⟩
    have hinf32 : isInf32 (decBits N b) := by
      rw [decBits_of_isInf16 N hinf]
      exact ⟨expo32_fields .., frac32_fields ..⟩
    rw [encBits_of_isInf32 M hinf32, encInf_eq, low15_append]
    exact BitVec.eq_of_toNat_eq ((isInf16_iff_low15 b).1 hinf).symm

/-- A pattern is its sign over its bits below the sign. -/
theorem sign16_append_low15 (h : Pattern16) : sign16 h ++ low15 h = h := by
  rw [sign16, low15, BitVec.extractLsb'_append_extractLsb'_eq_extractLsb' (Nat.zero_add 15).symm,
    BitVec.extractLsb'_eq_self]

/-- ENC undoes DEC off NaN, whatever the parameters are (42_laws.md R101). -/
theorem encBits_decBits (N : Pattern16 → Pattern32) (M : Pattern32 → Pattern16) {b : Pattern16} (hb : ¬ isNaN16 b) :
    encBits M (decBits N b) = b := by
  rw [encBits_eq_sign_low15 M (not_isNaN32_decBits N hb), low15_encBits_decBits N M hb, sign32_decBits_of_not_nan N hb,
    sign16_append_low15]

/-- Settles O41. -/
theorem encodeOfDecodeIsThePattern : Obligations.EncodeOfDecodeIsThePattern := by
  intro b d s u hb
  refine ⟨_, _, decBits (decNan s.draws) b, exec_dec b s, rfl, exec_enc _ d u, ?_⟩
  simp [encBits_decBits _ _ hb]

/-- Settles O43: a pattern that comes back from DEC of ENC is the response to what ENC gave. -/
theorem decodeOfEncodeOnRepresentable : Obligations.DecodeOfEncodeOnRepresentable := fun N M =>
  ⟨fun _ hb => congrArg (decBits N) (encBits_decBits N M hb),
    fun _ hv hnone => hnone _ (not_isNaN16_encBits M (not_isNaN32_of_finite hv))⟩

/-- Settles O44: what ENC gives is a pattern that is no NaN. -/
theorem reencodingChangesNothing : Obligations.ReencodingChangesNothing := fun N M _ hv =>
  encBits_decBits N M (not_isNaN16_encBits M hv)

/-- The default `ENC_NAN` takes back the fraction bits into which the default `DEC_NAN` moved the mantissa, the quiet bit
set in both (40_decode.md R81, 41_encode.md R92). -/
theorem mantissa_through_defaults (m : BitVec 10) :
    (m.zeroExtend 23 <<< 13 ||| 0x400000#23).extractLsb' 13 10 ||| 0x200#10 = m ||| 0x200#10 := by
  have hmant : (m.zeroExtend 23 <<< 13).extractLsb' 13 10 = m := by
    refine BitVec.eq_of_getLsbD_eq fun i hi => ?_
    have hlt : 13 + i < 23 := by omega
    simp [hi, hlt]
  have hquiet : (0x400000#23).extractLsb' 13 10 = 0x200#10 := rfl
  rw [BitVec.extractLsb'_or, hmant, hquiet, BitVec.or_assoc, BitVec.or_self]

/-- The two defaults set the quiet bit of a NaN and change nothing else (42_laws.md R102). -/
theorem encNanDefault_decNanDefault {b : Pattern16} (hb : isNaN16 b) :
    encNanDefault (decNanDefault b) = b ||| 0x0200#16 := by
  have hquiet : 0x0200#16 = 0#1 ++ 0#5 ++ 0x200#10 := rfl
  conv_rhs => rw [patternIsItsFields.1 b, hb.1, hquiet, BitVec.or_append, BitVec.or_append, BitVec.or_zero, BitVec.or_zero]
  rw [encNanDefault, decNanDefault, sign32_fields, frac32_fields, mantissa_through_defaults]

/-- `DEC_NAN` gives a NaN, on which ENC gives `ENC_NAN` (42_laws.md R102). -/
theorem encBits_decBits_of_isNaN16 {N : Pattern16 → Pattern32} (M : Pattern32 → Pattern16) (hN : DecNanAdmissible N)
    {b : Pattern16} (hb : isNaN16 b) : encBits M (decBits N b) = M (N b) := by
  rw [decBits_of_isNaN16 N hb, encBits_of_isNaN32 M (hN b hb).2]

/-- Settles O42. -/
theorem encodeOfDecodeOfNaNIsNaN : Obligations.EncodeOfDecodeOfNaNIsNaN := by
  refine ⟨fun N M hN hM b hb => ?_, fun b hb => ?_⟩
  · rw [encBits_decBits_of_isNaN16 M hN hb]
    exact hM _ (hN b hb).2
  · rw [encBits_decBits_of_isNaN16 _ decNanDefault_admissible hb, encNanDefault_decNanDefault hb]

/-! ## Flipping the sign -/

/-- Flipping the top bit of a pattern. -/
theorem append_xor_top {n : Nat} (s : BitVec 1) (x : BitVec n) : (s ++ x) ^^^ (1#1 ++ 0#n) = ~~~ s ++ x := by
  rw [BitVec.xor_append, BitVec.xor_zero, ← BitVec.xor_allOnes]
  rfl

/-- The sign flipped in a pattern of three fields (30_encoding.md R54, R57). -/
theorem append_append_xor_top {a b : Nat} (s : BitVec 1) (x : BitVec a) (y : BitVec b) :
    (s ++ x ++ y) ^^^ (1#1 ++ 0#a ++ 0#b) = ~~~ s ++ x ++ y := by
  rw [BitVec.xor_append, append_xor_top, BitVec.xor_zero]

theorem flip16_fields (s : BitVec 1) (e : BitVec 5) (m : BitVec 10) :
    (s ++ e ++ m) ^^^ 0x8000#16 = ~~~ s ++ e ++ m :=
  append_append_xor_top s e m

theorem flip32_fields (s : BitVec 1) (e : BitVec 8) (f : BitVec 23) :
    (s ++ e ++ f) ^^^ 0x80000000#32 = ~~~ s ++ e ++ f :=
  append_append_xor_top s e f

theorem sign16_flip (b : Pattern16) : sign16 (b ^^^ 0x8000#16) = ~~~ sign16 b := by
  rw [patternIsItsFields.1 b, flip16_fields, sign16_fields, sign16_fields]

theorem isNaN16_flip (b : Pattern16) : isNaN16 (b ^^^ 0x8000#16) ↔ isNaN16 b := by
  rw [patternIsItsFields.1 b, flip16_fields, isNaN16_fields, isNaN16_fields]

/-- A flipped sign leaves the other fields as they were (30_encoding.md R57). -/
theorem fields32_flip (v : Pattern32) : sign32 (v ^^^ 0x80000000#32) = ~~~ sign32 v ∧
    expo32 (v ^^^ 0x80000000#32) = expo32 v ∧ frac32 (v ^^^ 0x80000000#32) = frac32 v := by
  rw [patternIsItsFields.2 v, flip32_fields]
  simp only [sign32_fields, expo32_fields, frac32_fields, and_self]

theorem isNaN32_flip (v : Pattern32) : isNaN32 (v ^^^ 0x80000000#32) ↔ isNaN32 v := by
  obtain ⟨_, hexpo, hfrac⟩ := fields32_flip v
  rw [isNaN32, hexpo, hfrac]

/-- Under the default `DEC_NAN` a flipped sign is flipped in the response, and nothing else (42_laws.md R105): in every
class the other fields do not depend on the sign. -/
theorem decBits_decNanDefault_flip (b : Pattern16) :
    decBits decNanDefault (b ^^^ 0x8000#16) = decBits decNanDefault b ^^^ 0x80000000#32 := by
  cases b using pattern16_cases with
  | zero sg =>
    rw [flip16_fields, decBits_zero, decBits_zero]
    exact (flip32_fields ..).symm
  | subnormal sg m hm =>
    rw [flip16_fields, decBits_subnormal _ _ hm, decBits_subnormal _ _ hm]
    exact (flip32_fields ..).symm
  | normal sg e m h0 h31 =>
    rw [flip16_fields, decBits_normal _ _ m h0 h31, decBits_normal _ _ m h0 h31]
    exact (flip32_fields ..).symm
  | infinity sg =>
    rw [flip16_fields, decBits_infinity, decBits_infinity]
    exact (flip32_fields ..).symm
  | nan sg m hm =>
    have hnan : ∀ s : BitVec 1, isNaN16 (s ++ 31#5 ++ m) := fun s => (isNaN16_fields ..).2 ⟨rfl, hm⟩
    rw [flip16_fields, decBits_of_isNaN16 _ (hnan _), decBits_of_isNaN16 _ (hnan _), decNanDefault, decNanDefault,
      flip32_fields]
    simp only [sign16_fields, mant16_fields]

/-- Under the default `ENC_NAN` a flipped sign is flipped in the result, and nothing else (42_laws.md R105): class and bits
below the sign come from exponent field and fraction. -/
theorem encBits_encNanDefault_flip (v : Pattern32) :
    encBits encNanDefault (v ^^^ 0x80000000#32) = encBits encNanDefault v ^^^ 0x8000#16 := by
  obtain ⟨hsign, hexpo, hfrac⟩ := fields32_flip v
  rcases pattern32_cases v with hnan | hinf | hfin
  · have hnan' : isNaN32 (v ^^^ 0x80000000#32) := (isNaN32_flip v).2 hnan
    rw [encBits_of_isNaN32 _ hnan', encBits_of_isNaN32 _ hnan, encNanDefault, encNanDefault, hsign, hfrac, flip16_fields]
  · have hinf' : isInf32 (v ^^^ 0x80000000#32) := ⟨hexpo.trans hinf.1, hfrac.trans hinf.2⟩
    rw [encBits_of_isInf32 _ hinf', encBits_of_isInf32 _ hinf, encInf, encInf, hsign, flip16_fields]
  · have hfin' : isFinite32 (v ^^^ 0x80000000#32) := fun h => hfin (hexpo.symm.trans h)
    rw [encBits_of_finite _ hfin', encBits_of_finite _ hfin, encFinite, encFinite, hsign, hexpo, hfrac]
    exact (append_xor_top ..).symm

/-- Settles O45: off NaN the parameters do not matter, so that the defaults stand for any. -/
theorem signSymmetry : Obligations.SignSymmetry := by
  refine ⟨fun N b hb => ?_, fun M v hv => ?_, fun N hN b _ => ?_, decBits_decNanDefault_flip, encBits_encNanDefault_flip⟩
  · have hb' : ¬ isNaN16 (b ^^^ 0x8000#16) := (isNaN16_flip b).not.2 hb
    rw [decBits_of_not_nan N decNanDefault hb, decBits_of_not_nan N decNanDefault hb', decBits_decNanDefault_flip]
  · have hv' : ¬ isNaN32 (v ^^^ 0x80000000#32) := (isNaN32_flip v).not.2 hv
    rw [encBits_of_not_nan M encNanDefault hv, encBits_of_not_nan M encNanDefault hv', encBits_encNanDefault_flip]
  · rw [sign32_decBits hN, sign32_decBits hN, sign16_flip]

/-! ## The nearest value -/

/-- The rounded pattern is no further away than either neighbour (41_encode.md R88). -/
theorem RoundsToNearestEven.error_le_neighbours {x : ℚ} {i j : Nat} (h : RoundsToNearestEven x j) (hi : i ≤ 0x7BFF)
    (hlow : gridMag i ≤ x) (hhigh : x < gridMag (i + 1)) :
    |gridMag j - x| ≤ x - gridMag i ∧ |gridMag j - x| ≤ gridMag (i + 1) - x := by
  have hmid : gridMid i = (gridMag i + gridMag (i + 1)) / 2 := rfl
  have hdown : |gridMag i - x| = x - gridMag i := by rw [abs_sub_comm, abs_of_nonneg (sub_nonneg.2 hlow)]
  have hup : |gridMag (i + 1) - x| = gridMag (i + 1) - x := abs_of_nonneg (sub_nonneg.2 hhigh.le)
  rw [(roundsToNearestEven_iff hi hlow hhigh j).1 h]
  rw [roundUpFrom]
  split
  case isTrue hrises =>
    have hge : gridMid i ≤ x := hrises.elim le_of_lt fun htie => htie.1.ge
    rw [hup]
    constructor <;> linarith
  case isFalse hstays =>
    have hle : x ≤ gridMid i := not_lt.1 fun hgt => hstays (.inl hgt)
    rw [Nat.add_zero, hdown]
    constructor <;> linarith

/-- No point of the grid is nearer than the rounded pattern: each lies at or beyond a neighbour (42_laws.md R107). -/
theorem RoundsToNearestEven.nearest {x : ℚ} {j k : Nat} (h : RoundsToNearestEven x j) (h0 : 0 ≤ x) (hx : x < 2 ^ 16)
    (hk : k ≤ 0x7C00) : |gridMag j - x| ≤ |gridMag k - x| := by
  obtain ⟨i, hi, hlow, hhigh⟩ := exists_lower_neighbour h0 0x7C00 (gridMag_last.symm ▸ hx)
  obtain ⟨hdown, hup⟩ := h.error_le_neighbours (by omega) hlow hhigh
  rcases Nat.lt_or_ge i k with hik | hki
  · have hbeyond : gridMag (i + 1) ≤ gridMag k := (gridMag_le_iff (by omega) hk).2 hik
    calc |gridMag j - x| ≤ gridMag k - x := by linarith
      _ ≤ |gridMag k - x| := le_abs_self _
  · have hbeyond : gridMag k ≤ gridMag i := (gridMag_le_iff hk (by omega)).2 hki
    calc |gridMag j - x| ≤ x - gridMag k := by linarith
      _ ≤ |gridMag k - x| := abs_sub_comm x _ ▸ le_abs_self _

/-- Settles O46: below 65520 the result is finite, and the magnitudes of finite patterns are points of the grid. -/
theorem encIsNearest : Obligations.EncIsNearest := by
  intro v d s hv hx
  have hrounds := encBits_rounds (encNan s.draws) hv
  have hfin : isFinite16 (encBits (encNan s.draws) v) :=
    (isFinite16_iff_low15 _).2 (Nat.lt_succ_of_le (hrounds.finite_iff.2 hx))
  refine ⟨_, _, exec_enc v d s, SlotStore.read_write_self .., fun b hb _ => ?_⟩
  rw [mag16_eq_gridMag hfin, mag16_eq_gridMag hb]
  exact hrounds.nearest (mag32_nonneg v) (hx.trans (by norm_num)) ((isFinite16_iff_low15 b).1 hb).le

/-! ## Totality -/

/-- Every instruction completes in every state (60_exceptions.md R110). -/
theorem exec_completes (i : Instr) (s : State) : ∃ t, exec i s = .next t := by
  cases i with
  | dec b => exact ⟨_, exec_dec b s⟩
  | enc v d => exact ⟨_, exec_enc v d s⟩

/-- Settles O53. -/
theorem operationsNeverStop : Obligations.OperationsNeverStop := by
  refine ⟨fun b s => ⟨_, _, exec_dec b s, rfl⟩, fun v d s => ⟨_, _, exec_enc v d s, SlotStore.read_write_self ..⟩,
    fun i j s => ?_⟩
  obtain ⟨t, ht⟩ := exec_completes i s
  obtain ⟨u, hu⟩ := exec_completes j t
  exact ⟨t, u, ht, hu⟩

end Sys2Proof.Machine
end

section
/-! PROOFS. The statements of 60_exceptions.md: what can fault in a step. -/

namespace Sys2Proof.Machine

/-! ## Faults of a step -/

/-- A handing over never faults: it is queued or refused (20_memory.md R46). -/
theorem handOver_not_fault (c : CallerId) (r : Request) (s : State) (f : Fault) : handOver c r s ≠ .fault f := by
  by_cases hfree : ∀ d, r.target = some d → otherWriter c d s.calls = false
  · rw [handOver_of_no_otherWriter hfree]
    exact nofun
  · simp only [not_forall, Bool.not_eq_false] at hfree
    obtain ⟨d, hr, hw⟩ := hfree
    rw [handOver_refused hr hw]
    exact nofun

/-- A write never faults: it changes its slot or is refused (20_memory.md R46). -/
theorem callerWrite_not_fault (d : SlotId) (x : Pattern16) (s : State) (f : Fault) : callerWrite d x s ≠ .fault f := by
  cases hw : anyWriter d s.calls with
  | true =>
    rw [callerWrite_refused hw]
    exact nofun
  | false =>
    rw [callerWrite_of_no_writer hw]
    exact nofun

/-- Performing a call never faults: every instruction completes, and a request that decodes to none is refused
(60_exceptions.md R110, 30_encoding.md R72). -/
theorem perform_not_fault (c : CallerId) (s : State) (f : Fault) : perform c s ≠ .fault f := by
  cases htake : takeOldest c s.calls with
  | none =>
    rw [perform, htake]
    exact nofun
  | some taken =>
    obtain ⟨r, rest⟩ := taken
    cases hdec : decode r with
    | ok i =>
      rw [perform_eq htake hdec]
      exact nofun
    | error e =>
      obtain ⟨pre, post, hcalls, -, hpre⟩ := takeOldest_eq_some htake
      rw [perform_refused_of_error hcalls hpre hdec]
      exact nofun

/-- A read faults only where the slot holds no value, and by its name (10_state.md R34). -/
theorem callerRead_fault {c : CallerId} {d : SlotId} {s : State} {f : Fault} (h : callerRead c d s = .fault f) :
    s.slots.read d = none ∧ f = .unwrittenSlot d := by
  unfold callerRead at h
  split at h
  case h_1 => cases h
  case h_2 hnone =>
    injection h with h
    exact ⟨hnone, h.symm⟩

/-- The only input that faults is a read of a slot that holds no value. -/
theorem act_fault {i : Input} {s : State} {f : Fault} (h : act i s = .fault f) :
    ∃ c d, i = .read c d ∧ s.slots.read d = none ∧ f = .unwrittenSlot d := by
  cases i with
  | call c r => exact absurd h (handOver_not_fault c r s f)
  | perform c => exact absurd h (perform_not_fault c s f)
  | read c d => exact ⟨c, d, rfl, callerRead_fault h⟩
  | write d x => exact absurd h (callerWrite_not_fault d x s f)
  | resetBlock => cases h
  | resetSystem => cases h

/-- Settles O54: a step is an input's act, the performance of a call, or nothing, and of these only a read can fault. -/
theorem onlyUnwrittenReadsFault : Obligations.OnlyUnwrittenReadsFault := by
  intro s f h
  cases hi : s.inputs with
  | cons i rest =>
    rw [step_cons hi] at h
    obtain ⟨c, d, rfl, hnone, hf⟩ := act_fault h
    exact ⟨c, d, rest, rfl, hnone, hf⟩
  | nil =>
    cases hc : s.calls with
    | cons k rest =>
      rw [step_nil_cons hi hc] at h
      exact absurd h (perform_not_fault k.caller s f)
    | nil =>
      rw [step_runOver ⟨hi, hc⟩] at h
      cases h

end Sys2Proof.Machine
end

section
/-! PROOFS. The statements of 70_reset_and_hazards.md: the end of every run, and the two resets. -/

namespace Sys2Proof.Machine

/-! ## The bound on the steps left -/

/-- Taking a call leaves one call fewer. -/
theorem length_of_takeOldest {c : CallerId} {calls rest : List Call} {r : Request}
    (h : takeOldest c calls = some (r, rest)) : rest.length + 1 = calls.length := by
  obtain ⟨pre, post, rfl, rfl, -⟩ := takeOldest_eq_some h
  simp [Nat.add_assoc]

/-- The bound is used up exactly when the run is over (70_reset_and_hazards.md R132). -/
theorem stepsLeft_eq_zero_iff {s : State} : s.stepsLeft = 0 ↔ s.runOver := by
  simp [State.stepsLeft, State.runOver]

/-- An input not yet consumed counts for two steps. -/
theorem stepsLeft_of_inputs_cons {s : State} {i : Input} {rest : List Input} (h : s.inputs = i :: rest) :
    s.stepsLeft = ({ s with inputs := rest } : State).stepsLeft + 2 := by
  simp only [State.stepsLeft, h, List.length_cons]
  omega

/-- Performing a call of caller `c` uses up one step, unless `c` has no call outstanding. -/
theorem perform_stepsLeft {c : CallerId} {s t : State} (h : perform c s = .next t) :
    (takeOldest c s.calls = none ∧ t = s) ∨ t.stepsLeft + 1 = s.stepsLeft := by
  obtain hnone | ⟨r, rest, i, -, htake, hdec, -, -⟩ := perform_next h
  · exact .inl hnone
  · rw [perform_eq htake hdec] at h
    injection h with h
    subst h
    simp only [State.stepsLeft, State.performed, ← length_of_takeOldest htake, Nat.add_assoc, or_true]

/-- Performing the oldest call of all uses up one step. -/
theorem perform_head_stepsLeft {s t : State} {k : Call} {rest : List Call} (hc : s.calls = k :: rest)
    (h : perform k.caller s = .next t) : t.stepsLeft + 1 = s.stepsLeft := by
  refine (perform_stepsLeft h).resolve_left fun ⟨hnone, _⟩ => ?_
  rw [hc, takeOldest_head] at hnone
  cases hnone

/-- An input adds at most one step to those left: the performance of the call it hands over. -/
theorem act_stepsLeft_le {i : Input} {s t : State} (h : act i s = .next t) : t.stepsLeft ≤ s.stepsLeft + 1 := by
  cases i with
  | call c r =>
    obtain ⟨rfl, -⟩ := handOver_next h
    simp [State.stepsLeft, Nat.add_assoc]
  | perform c =>
    obtain ⟨-, rfl⟩ | hused := perform_stepsLeft h
    · exact Nat.le_succ _
    · omega
  | read c d =>
    obtain ⟨x, -, rfl⟩ := callerRead_next h
    exact Nat.le_succ _
  | write d x =>
    obtain ⟨-, rfl⟩ := callerWrite_next h
    exact Nat.le_succ _
  | resetBlock =>
    cases h
    exact Nat.le_succ _
  | resetSystem =>
    cases h
    exact Nat.le_succ _

/-- A step of a run that is not over uses up some of the bound: it consumes an input, or it performs the oldest call. -/
theorem step_stepsLeft_lt {s t : State} (hover : ¬ s.runOver) (h : step s = .next t) : t.stepsLeft < s.stepsLeft := by
  cases hi : s.inputs with
  | cons i rest =>
    rw [step_cons hi] at h
    have hact := act_stepsLeft_le h
    have hconsumed := stepsLeft_of_inputs_cons hi
    omega
  | nil =>
    cases hc : s.calls with
    | cons k rest =>
      rw [step_nil_cons hi hc] at h
      exact Nat.lt_of_succ_le (perform_head_stepsLeft hc h).le
    | nil => exact absurd ⟨hi, hc⟩ hover

/-! ## The end of a run -/

/-- On any machine, a run that goes on for `n + 1` steps takes one step and goes on for `n`. -/
theorem run_succ_next {M : Host.Core} {n : Nat} {s t : M.State} (h : M.run (n + 1) s = .next t) :
    ∃ u, M.step s = .next u ∧ M.run n u = .next t := by
  rw [Host.Core.run] at h
  split at h
  case h_1 u hstep => exact ⟨u, hstep, h⟩
  case h_2 => cases h
  case h_3 => cases h

/-- A run that does not stop is over once it has taken as many steps as the bound (70_reset_and_hazards.md R131, R132). -/
theorem runOver_of_run {n : Nat} {s t : State} (hn : s.stepsLeft ≤ n) (h : Sys2Proof.core.run n s = .next t) :
    t.runOver := by
  induction n generalizing s with
  | zero =>
    cases h
    exact stepsLeft_eq_zero_iff.1 (Nat.le_zero.1 hn)
  | succ n ih =>
    obtain ⟨u, (hstep : step s = .next u), hrun⟩ := run_succ_next h
    refine ih ?_ hrun
    by_cases hover : s.runOver
    · rw [step_runOver hover] at hstep
      cases hstep
      exact (stepsLeft_eq_zero_iff.2 hover).le.trans n.zero_le
    · exact Nat.le_of_lt_succ ((step_stepsLeft_lt hover hstep).trans_le hn)

/-- Settles O57, by induction on the number of steps: each step either uses up some of the bound or finds the run over. -/
theorem everyRunEnds : Obligations.EveryRunEnds := by
  refine ⟨fun _ _ => step_stepsLeft_lt, fun s n t hn h => ?_⟩
  have hover := runOver_of_run hn h
  exact ⟨hover, step_runOver hover⟩

/-! ## Resets -/

/-- Settles O60: a reset is consumed as the next input, and the system's alone touches the slots. -/
theorem resetsOfBlockAndSystem : Obligations.ResetsOfBlockAndSystem := fun _ _ =>
  ⟨fun hi => ⟨_, (step_cons hi).trans (resetBlock_eq _), fun _ => rfl, rfl⟩,
    fun hi => ⟨_, (step_cons hi).trans (resetSystem_eq _), SlotStore.read_nil, rfl⟩⟩

end Sys2Proof.Machine
end
